-- ==== Sys2Proof/Word.lean ====
section
/-! DEFINITION. The words of the block: the byte of every wire field and level operand (spec/00_scope.md R5, R6), and the
5-bit command word (spec/30_encoding.md R50). -/

namespace Sys2Proof

/-- A byte: an unsigned number 0..255, bit 7 the most significant (R6). Addition on bytes is modulo 256. -/
abbrev Byte := BitVec 8

/-- The command word `cw = {vsel, opc}` (R50). -/
abbrev CommandWord := BitVec 5

end Sys2Proof
end

