-- ==== Sys2Proof/Config.lean ====
section
/-! DEFINITION. What is fixed for the machine: the three protocol variants, the seven operations, the operand record's shape,
the Level Write Mode (spec/00_scope.md R1, R5; spec/10_state.md R11), and what the spec leaves open: the free bytes and the
three name strings. -/

namespace Sys2Proof

/-- The protocol variants, a closed set of three (R1, R51). -/
inductive Variant where
  /-- Original, `ORIG`, suffix `.O`: no checksum, 11-byte response. -/
  | orig
  /-- 8-Byte, `B8`, suffix `.8`: checksummed, 14-byte response. -/
  | b8
  /-- 9-Byte, `B9`, suffix `.9`: checksummed, 14-byte response, two white channels. -/
  | b9
deriving DecidableEq, Repr

/-- The seven operations of the variant interface (R52, R80). -/
inductive Operation where
  | query | stchg | levels | valid | parse | rlen | name
deriving DecidableEq, Repr

/-- The operand record of R11 without `resp`: 50 bits, two one-bit fields and six bytes (R19, `OPL`). -/
structure Operands where
  /-- 1 = power on, 0 = power off. -/
  turnOn : Bool
  /-- 1 = the setting survives a power cycle of the device. -/
  persist : Bool
  red : Byte
  green : Byte
  blue : Byte
  warmWhite : Byte
  coolWhite : Byte
  /-- The mode byte: a Level Write Mode code or, for `LEVELS.8` on some devices, a second white level (R114). -/
  mode : Byte
deriving DecidableEq, Repr

/-- Every field 0: what `OPL` holds after reset (R19, R181). -/
def Operands.zero : Operands :=
  { turnOn := false, persist := false, red := 0, green := 0, blue := 0, warmWhite := 0, coolWhite := 0, mode := 0 }

/-- Level Write Mode, a closed set of three (R88). -/
inductive LevelWriteMode where
  | all | colors | whites
deriving DecidableEq, Repr

/-- DESIGN CHOICE (log 8). Free bytes: what a register holds that the spec leaves unspecified (`FBUF` after a `reset` step,
R138, R181, U8). It has no body, so nothing can be proved of any of its values. -/
opaque Config.freeByte : Nat → Byte

/-- The open parameter `name_string` (R5, D12, U10): three strings of which only their being different is known. A statement
about text quantifies over it (log 13). -/
structure NameStrings where
  text : Variant → String
  injective : ∀ v w, text v = text w → v = w

end Sys2Proof
end

