-- ==== Sys2Proof/Syntax.lean ====
section
/-! DEFINITION. The 21 operations of the block, one constructor per row of spec/opcode_table.json (R70). A command word has no
operand field (R50): what an operation reads beside its word stands on the operand port. -/

namespace Sys2Proof

/-- One constructor per legal command word. The last letter is the variant's suffix: `O`, `8` or `9`. -/
inductive Instr where
  | queryO | stchgO | levelsO | validO | parseO | rlenO | nameO
  | query8 | stchg8 | levels8 | valid8 | parse8 | rlen8 | name8
  | query9 | stchg9 | levels9 | valid9 | parse9 | rlen9 | name9
deriving DecidableEq, Repr

end Sys2Proof
end

