-- ==== Sys2Proof/WellFormed.lean ====
section
/-! DEFINITION. Well-formedness: which command words name an operation (spec/30_encoding.md R54), and the assembler lines of
R70 and R71 with the range checks their literals must pass (R190: a wider value is brought into range before the port). -/

namespace Sys2Proof

/-- The eleven reserved command words: `vsel = 3` with any `opc`, or `opc = 7` in any variant (R54). -/
def CommandWord.reserved (cw : CommandWord) : Bool :=
  cw.extractLsb' 3 2 == 3#2 || cw.extractLsb' 0 3 == 7#3

/-- A command word is well formed when it names an operation. -/
def CommandWord.wellFormed (cw : CommandWord) : Bool := !cw.reserved

/-- The mode operand of an assembler line: `ALL`, `COLORS`, `WHITES` or a literal `#0xNN` (R70). -/
inductive ModeOperand where
  | code (m : LevelWriteMode)
  | literal (n : Nat)
deriving DecidableEq, Repr

/-- An assembler line (R70), the two pseudo-instructions (R71) and the bare word `cw 0xNN` of 95_test_vectors.md section 3.4.
Operands that a variant ignores are not written. A line is text: its literals are numbers that may be out of range. -/
inductive Asm where
  | query (v : Variant)
  | stchg (v : Variant) (on : Bool)
  | levelsO (r g b : Nat)
  | levels8 (p : Bool) (r g b ww : Nat) (m : ModeOperand)
  | levels9 (p : Bool) (r g b ww cw : Nat) (m : ModeOperand)
  | valid (v : Variant) (bytes : List Nat)
  | parse (v : Variant) (bytes : List Nat)
  | rlen (v : Variant)
  | name (v : Variant)
  | on (v : Variant)
  | off (v : Variant)
  | word (cw : Nat)
deriving DecidableEq, Repr

/-- A byte literal is 0..255 (R6, R190). -/
def byteLiteral (n : Nat) : Bool := decide (n < 256)

/-- A mode literal is a byte; the three codes always are. -/
def ModeOperand.wellFormed : ModeOperand → Bool
  | .code _ => true
  | .literal n => byteLiteral n

/-- A line is well formed when every literal of it fits the port it goes to. -/
def Asm.wellFormed : Asm → Bool
  | .query _ => true
  | .stchg _ _ => true
  | .levelsO r g b => [r, g, b].all byteLiteral
  | .levels8 _ r g b ww m => [r, g, b, ww].all byteLiteral && m.wellFormed
  | .levels9 _ r g b ww cw m => [r, g, b, ww, cw].all byteLiteral && m.wellFormed
  | .valid _ bytes => bytes.all byteLiteral
  | .parse _ bytes => bytes.all byteLiteral
  | .rlen _ => true
  | .name _ => true
  | .on _ => true
  | .off _ => true
  | .word cw => decide (cw < 32)

end Sys2Proof
end

