-- ==== Sys2Proof/Decode.lean ====
section
/-! DEFINITION. Decoding of command words (spec/30_encoding.md R50 to R54, R73), and the encoder written from the same tables.
The command port carries five bits; where a word is written as bytes it fills one byte whose upper three bits are 0 (log 14). -/

namespace Sys2Proof

/-- Why a word is no instruction. -/
inductive DecodeError where
  /-- `vsel = 3` or `opc = 7` (R54). -/
  | reserved (cw : CommandWord)
  /-- A byte whose upper three bits are not 0: wider than the command port (log 14). -/
  | notACommandWord (b : Byte)
  /-- No byte at all. -/
  | empty
deriving DecidableEq, Repr

/-- The field `vsel = cw[4:3]` (R50). -/
def vselOf (cw : CommandWord) : BitVec 2 := cw.extractLsb' 3 2

/-- The field `opc = cw[2:0]` (R50). -/
def opcOf (cw : CommandWord) : BitVec 3 := cw.extractLsb' 0 3

/-- Variant select codes (R51); 3 is reserved. -/
def variantOfVsel (vsel : BitVec 2) : Option Variant :=
  match vsel.toNat with
  | 0 => some .orig
  | 1 => some .b8
  | 2 => some .b9
  | _ => none

/-- Operation codes (R52); 7 is reserved. -/
def operationOfOpc (opc : BitVec 3) : Option Operation :=
  match opc.toNat with
  | 0 => some .query
  | 1 => some .stchg
  | 2 => some .levels
  | 3 => some .valid
  | 4 => some .parse
  | 5 => some .rlen
  | 6 => some .name
  | _ => none

/-- The operation of a variant (the table of R70). -/
def Instr.ofParts : Variant → Operation → Instr
  | .orig, .query => .queryO
  | .orig, .stchg => .stchgO
  | .orig, .levels => .levelsO
  | .orig, .valid => .validO
  | .orig, .parse => .parseO
  | .orig, .rlen => .rlenO
  | .orig, .name => .nameO
  | .b8, .query => .query8
  | .b8, .stchg => .stchg8
  | .b8, .levels => .levels8
  | .b8, .valid => .valid8
  | .b8, .parse => .parse8
  | .b8, .rlen => .rlen8
  | .b8, .name => .name8
  | .b9, .query => .query9
  | .b9, .stchg => .stchg9
  | .b9, .levels => .levels9
  | .b9, .valid => .valid9
  | .b9, .parse => .parse9
  | .b9, .rlen => .rlen9
  | .b9, .name => .name9

/-- The operation a command word names, or its rejection by name (R54, R73). -/
def decode (cw : CommandWord) : Except DecodeError Instr :=
  match variantOfVsel (vselOf cw), operationOfOpc (opcOf cw) with
  | some v, some o => .ok (Instr.ofParts v o)
  | _, _ => .error (.reserved cw)

/-- The command word in a byte: its low five bits, if the other three are 0 (log 14). -/
def commandWordOfByte (b : Byte) : Except DecodeError CommandWord :=
  if b.extractLsb' 5 3 = 0#3 then .ok (b.extractLsb' 0 5) else .error (.notACommandWord b)

/-- Decoding of a byte list: the first byte is the command word, the rest is handed back. -/
def decodeBytes : List Byte → Except DecodeError (Instr × List Byte)
  | [] => .error .empty
  | b :: rest =>
    match commandWordOfByte b with
    | .error e => .error e
    | .ok cw =>
      match decode cw with
      | .error e => .error e
      | .ok i => .ok (i, rest)

/-- The byte that holds an instruction whose bits are `w`, `nbits` of them given and every bit above them 0. -/
def byteOfTableWord (nbits w : Nat) : Byte := BitVec.ofNat 8 (w % 2 ^ nbits)

/-- The instruction the decoder reads from an instruction whose bits are `w`, numbered as spec/opcode_table.json does. -/
def decodeTableWord (nbits w : Nat) : Option Instr :=
  match decodeBytes [byteOfTableWord nbits w] with
  | .ok (i, _) => some i
  | .error _ => none

/-- The variant an instruction belongs to: its suffix (R51). -/
def Instr.variant : Instr → Variant
  | .queryO | .stchgO | .levelsO | .validO | .parseO | .rlenO | .nameO => .orig
  | .query8 | .stchg8 | .levels8 | .valid8 | .parse8 | .rlen8 | .name8 => .b8
  | .query9 | .stchg9 | .levels9 | .valid9 | .parse9 | .rlen9 | .name9 => .b9

/-- The operation an instruction performs: its mnemonic (R52). -/
def Instr.operation : Instr → Operation
  | .queryO | .query8 | .query9 => .query
  | .stchgO | .stchg8 | .stchg9 => .stchg
  | .levelsO | .levels8 | .levels9 => .levels
  | .validO | .valid8 | .valid9 => .valid
  | .parseO | .parse8 | .parse9 => .parse
  | .rlenO | .rlen8 | .rlen9 => .rlen
  | .nameO | .name8 | .name9 => .name

/-- Variant select codes, written out (R51). -/
def vselOfVariant : Variant → BitVec 2
  | .orig => 0
  | .b8 => 1
  | .b9 => 2

/-- Operation codes, written out (R52). -/
def opcOfOperation : Operation → BitVec 3
  | .query => 0
  | .stchg => 1
  | .levels => 2
  | .valid => 3
  | .parse => 4
  | .rlen => 5
  | .name => 6

/-- `cw = {vsel, opc}` (R50). -/
def encode (i : Instr) : CommandWord := vselOfVariant i.variant ++ opcOfOperation i.operation

/-- The byte that holds an instruction (log 14). -/
def encodeBytes (i : Instr) : List Byte := [(encode i).zeroExtend 8]

/-- An instruction is well formed when its word names an operation; every one is (R54: the 21 words that remain are legal). -/
def Instr.wellFormed (i : Instr) : Bool := CommandWord.wellFormed (encode i)

end Sys2Proof
end

