-- ==== Sys2Proof/Machine/State.lean ====
section
/-! DEFINITION. The state of the block as plain data: the level-S registers (spec/10_state.md R19, spec/44_serial_datapath.md
R131), the ports and index spaces of a transaction (R11, R12, R14), the host's offers and what has been handed to the host
(R132); the results (R14); the reasons a step can stop; the state after reset (spec/70_reset_and_hazards.md R181). -/

namespace Sys2Proof.Machine

/-- What the block is doing (R19). -/
inductive Phase where
  | idle | emit | recv
deriving DecidableEq, Repr

/-- The cause codes of `VALID` (R14, R91): NONE 0, LEN 1, HEAD 2, CSUM 3. -/
inductive Rej where
  | none | len | head | csum
deriving DecidableEq, Repr

/-- The diagnostic pair of a checksum mismatch (R17, R163). -/
structure Diag where
  /-- the sum modulo 256 the block computed over the bytes before the last -/
  expected : Byte
  /-- the received last byte -/
  actual : Byte
deriving DecidableEq, Repr

/-- The fields of a `Valid` result (R14). -/
structure Verdict where
  ok : Bool
  rej : Rej
  diag : Option Diag
deriving DecidableEq, Repr

/-- The Original record: 11 fields in layout order (R18, R63). -/
structure NamedOrig where
  head : Byte
  modelNum : Byte
  powerState : Byte
  presetPattern : Byte
  mode : Byte
  speed : Byte
  red : Byte
  green : Byte
  blue : Byte
  warmWhite : Byte
  checkSum : Byte
deriving DecidableEq, Repr

/-- The extended record of the 8-Byte and 9-Byte variants: 14 fields in layout order (R18, R64). -/
structure NamedExt where
  head : Byte
  modelNum : Byte
  powerState : Byte
  presetPattern : Byte
  mode : Byte
  speed : Byte
  red : Byte
  green : Byte
  blue : Byte
  warmWhite : Byte
  versionNumber : Byte
  coolWhite : Byte
  colorMode : Byte
  checkSum : Byte
deriving DecidableEq, Repr

/-- A named-state record. The Original record has no version_number, cool_white or color_mode at all (R18, D21). -/
inductive Named where
  | orig (r : NamedOrig)
  | ext (r : NamedExt)
deriving DecidableEq, Repr

/-- The constant of a `Const` result: 8 bits for `RLEN`, a 2-bit variant tag for `NAME` (R14, D12, D13). -/
inductive ConstVal where
  | length (k : BitVec 8)
  | tag (t : BitVec 2)
deriving DecidableEq, Repr

/-- The result of a transaction (R14; log 20). The last two are the error results, delivered like any other (R160; log 6, 7). -/
inductive Result where
  | frame (bytes : List Byte)
  | valid (v : Verdict)
  | named (rec : Named)
  | const (k : ConstVal)
  /-- `PARSE` of a response that is not valid; carries the code `VALID` would give (R164). -/
  | parseContract (cause : Rej)
  /-- a reserved command word; carries the word (R165). -/
  | cmdReserved (cw : CommandWord)
deriving DecidableEq, Repr

/-- A label of a block-driven output (R132). -/
inductive Output where
  /-- `tx(b, last)`: a frame byte handed to the host. -/
  | tx (b : Byte) (last : Bool)
  /-- `res(r)`: the result of a transaction. -/
  | res (r : Result)
deriving DecidableEq, Repr

/-- A command the host offers. -/
inductive Command where
  /-- A transaction of level T: word, operands and response at once (R4, R36; log 1). -/
  | whole (cw : CommandWord) (op : Operands) (resp : List Byte)
  /-- The step `cmd(cw, op)` of level S (R132). -/
  | serial (cw : CommandWord) (op : Operands)
deriving DecidableEq, Repr

/-- What the host offers, in its order (R132; log 2). -/
inductive Event where
  | command (c : Command)
  /-- a slot in which the block may take its `tx` step and the host accepts the byte -/
  | tx
  | rx (b : Byte)
  | rxEnd
  | reset
deriving DecidableEq, Repr

/-- FRAME as (index, byte) pairs (R30). Canonical form: indices strictly rising. An index not listed has not been written and
has no value (log 10). -/
abbrev Memory := List Host.Cell

/-- The machine. -/
structure State where
  /-- `PHASE` (R19) -/
  phase : Phase
  /-- `CW` (R19) -/
  cw : CommandWord
  /-- `OPL` (R19) -/
  opl : Operands
  /-- `IDX` (R19) -/
  idx : BitVec 4
  /-- `CNT` (R19) -/
  cnt : BitVec 4
  /-- `ACC` (R19) -/
  acc : Byte
  /-- `LAST` (R19) -/
  last : Byte
  /-- `HOK` (R19) -/
  hok : Bool
  /-- `FBUF[0..13]` (R19) -/
  fbuf : Vector Byte 14
  /-- the operand port (R11) -/
  op : Operands
  /-- the response of the transaction, index space RESP (R11, R30): that of the last level-T command, which no level-S step reads
  or writes (DESIGN CHOICE, log 21) -/
  resp : List Byte
  /-- index space FRAME (R30): the frame last built or being built -/
  frame : Memory
  /-- the result port (R14, R181): the result the last labelled step delivered -/
  resPort : Option Result
  /-- commands offered while `PHASE` was not IDLE, oldest first (R132; log 3) -/
  held : List Command
  /-- MODEL's own: the host's offers still to come (log 2) -/
  inbox : List Event
  /-- MODEL's own: the labels handed to the host, oldest first; no step reads it (log 11) -/
  outbox : List Output
  /-- MODEL's own: how many free bytes have been drawn (log 8) -/
  draws : Nat
deriving DecidableEq, Repr

/-- Why a step has no next state. -/
inductive Fault where
  /-- `rx` offered while `PHASE` is not RECV: "a host error that the machine has no transition for" (R132). Raised by
  `Sys2Proof.Machine.offer`. Safe: nothing is claimed of what follows. -/
  | rxOutsideRecv
  /-- `rx_end` offered while `PHASE` is not RECV (R132). Raised by `Sys2Proof.Machine.offer`. Safe. -/
  | rxEndOutsideRecv
  /-- `PHASE` is EMIT and `CW` names no constructor, for which R134 has no base bytes. Raised by `Sys2Proof.Machine.txStep` in
  states no run reaches. Safe. -/
  | emitWithoutConstructor
  /-- `PHASE` is RECV and `CW` has no variant (raised by `Sys2Proof.Machine.rxStep`) or names neither `VALID` nor `PARSE` (raised
  by `Sys2Proof.Machine.rxEndStep`), in states no run reaches. Safe. -/
  | recvWithoutResponse
  /-- A FRAME index of 9 or more, which no frame has (R5 MAXFRAME, R30). Raised by `Sys2Proof.Machine.emitByte` in states no run
  reaches; `Sys2Proof.Machine.construct` would raise it for a frame of more than 9 bytes, and no meaning builds one. Safe. -/
  | frameIndex
  /-- A read of RESP at or past its length, which the block never makes (R34), or of a capture register past FBUF[13].
  `Sys2Proof.Machine.checkResponse`, `Sys2Proof.Machine.parseResponse` and `Sys2Proof.Machine.rxEndStep` would raise it; the
  length test, which comes first, excludes it. Safe. -/
  | responseIndex
deriving DecidableEq, Repr

/-- Why a step has no meaning. -/
inductive Refusal where
  /-- The instruction has no meaning in the model. Raised by no arm: every row of the table has its meaning. Safe. -/
  | notModelled (mnemonic : String)
deriving DecidableEq, Repr

/-- The three outcomes of a step of this machine. -/
abbrev Outcome := Host.Outcome State Fault Refusal

/-- The state after reset (R181). `FBUF` is unspecified there: 0 is the model's choice (DESIGN CHOICE, log 8). The ports, FRAME
and the model's own fields have no reset value in the spec but for "no result pending": empty or 0 is the model's choice
(DESIGN CHOICE, log 9). -/
def State.reset : State where
  phase := .idle
  cw := 0
  opl := .zero
  idx := 0
  cnt := 0
  acc := 0
  last := 0
  hok := false
  fbuf := Vector.replicate 14 0
  op := .zero
  resp := []
  frame := []
  resPort := none
  held := []
  inbox := []
  outbox := []
  draws := 0

end Sys2Proof.Machine
end

