-- ==== Sys2Proof/Machine/Operands.lean ====
section
/-! DEFINITION. The per-variant constants (spec/10_state.md R15, spec/40_interface_and_checksum.md R83), how an operand becomes
a frame byte (spec/30_encoding.md R65 to R67, spec/40 R86 to R88), and the frame formats with their lengths (R55). -/

namespace Sys2Proof.Machine

/-- `RLEN(v)`: the state response length (R15, R83). -/
def rlen : Variant → Nat
  | .orig => 11
  | .b8 => 14
  | .b9 => 14

/-- `CK(v)`: frames and responses carry a checksum (R15, R83). -/
def ck : Variant → Bool
  | .orig => false
  | .b8 => true
  | .b9 => true

/-- `HIDX(v)`: the index of the byte the validator compares (R15, R83; 90_conflicts.md C3). -/
def hidx : Variant → Nat
  | .orig => 1
  | .b8 => 0
  | .b9 => 0

/-- `HVAL(v)`: the value that byte must have (R15, R83). -/
def hval : Variant → Byte
  | .orig => 0x01
  | .b8 => 0x81
  | .b9 => 0x81

/-- `TAG(v)`: the variant tag, equal to `vsel`; stands for `name` (R15, D12). -/
def tag : Variant → BitVec 2
  | .orig => 0
  | .b8 => 1
  | .b9 => 2

/-- `ONOFF(t)`, in every variant (R65, R86). -/
def onOff (t : Bool) : Byte := if t then 0x23 else 0x24

/-- `PERSIST(p)`, in `B8` and `B9` (R66, R87). -/
def persistByte (p : Bool) : Byte := if p then 0x31 else 0x41

/-- `MODECODE(m)`: applied by the host, not by the block, which copies `op.mode` unchecked (R67, R88). -/
def modeCode : LevelWriteMode → Byte
  | .all => 0x00
  | .colors => 0xF0
  | .whites => 0x0F

/-- The number of base bytes of the frame an operation builds (R55); none for an operation that builds no frame. -/
def baseLength : Variant → Operation → Option Nat
  | _, .query => some 3
  | _, .stchg => some 3
  | .orig, .levels => some 5
  | .b8, .levels => some 7
  | .b9, .levels => some 8
  | _, _ => none

/-- The length of the frame an operation builds: its base bytes and, if the variant has one, the checksum byte (R55). -/
def frameLength (v : Variant) (o : Operation) : Option Nat :=
  (baseLength v o).map (fun n => n + if ck v then 1 else 0)

/-- MAXFRAME: the longest constructed frame (R5). FRAME has no index at or past it (R30). -/
def maxFrame : Nat := 9

end Sys2Proof.Machine
end

