-- ==== Sys2Proof/Machine/Flags.lean ====
section
/-! DEFINITION. The checksum generator and the framing rule (spec/40_interface_and_checksum.md R84, R85), and the result fields
`ok`, `rej`, `diag` of a check of a response (R91): what stands for flags in this block (spec/10_state.md R14). -/

namespace Sys2Proof.Machine

/-- `CSUM(s)`: the sum of the bytes as natural numbers, modulo 256 (R84). -/
def csum (s : List Byte) : Byte := BitVec.ofNat 8 (s.map BitVec.toNat).sum

/-- `FRAME(v, s)`: the base bytes and, in a checksummed variant, their checksum behind them (R85). -/
def frameOf (v : Variant) (s : List Byte) : List Byte := if ck v then s ++ [csum s] else s

/-- The code of a cause (R14, R91). -/
def rejCode : Rej → BitVec 2
  | .none => 0
  | .len => 1
  | .head => 2
  | .csum => 3

/-- The verdict of a response that passes every test: `ok = 1`, no diagnostic (R14). -/
def accepted : Verdict := { ok := true, rej := .none, diag := none }

/-- The verdict of a response rejected for its length (R161). -/
def rejectedLen : Verdict := { ok := false, rej := .len, diag := none }

/-- The verdict of a response of the right length with a wrong header byte (R162). -/
def rejectedHead : Verdict := { ok := false, rej := .head, diag := none }

/-- The verdict of a response whose checksum alone is wrong, with the diagnostic pair (R163). -/
def rejectedCsum (expected actual : Byte) : Verdict :=
  { ok := false, rej := .csum, diag := some { expected := expected, actual := actual } }

/-- `MemRead(RESP+i, 1)`: one byte of the response, defined only below its length (R7, R34). -/
def respRead (resp : List Byte) (i : Nat) : Option Byte := resp[i]?

/-- `VALIDATE(v, resp)` (R91): length, then header, then checksum; the first test that fails gives the cause (R167). `none` would
be a read outside the response, which the order of the tests excludes (R34). -/
def validate (v : Variant) (resp : List Byte) : Option Verdict :=
  if resp.length ≠ rlen v then some rejectedLen
  else
    match respRead resp (hidx v) with
    | none => none
    | some h =>
      if h ≠ hval v then some rejectedHead
      else if ck v then
        match respRead resp (resp.length - 1) with
        | none => none
        | some actual =>
          let expected := csum (resp.take (resp.length - 1))
          if expected ≠ actual then some (rejectedCsum expected actual) else some accepted
      else some accepted

end Sys2Proof.Machine
end

