-- ==== Sys2Proof/Machine/Ops.lean ====
section
/-! DEFINITION. The named operations over FRAME, RESP and the ports: the writes of a frame, delivery of a result, the shared
delivery of an error result (what stands for taking an exception, spec/60_exceptions.md R160, R168; there is no return from
one, R169), the record of a response, and the shared bodies of the level-T operations (spec/40_interface_and_checksum.md). -/

namespace Sys2Proof.Machine

/-- The byte at a FRAME index, if it has been written. The block has no such read (R30); statements use it. -/
def frameRead : Memory → Nat → Option Byte
  | [], _ => none
  | (j, c) :: m, i => if i = j then some c else frameRead m i

/-- Put a cell in its place, or over the one that stands there. -/
def putCell : Memory → Nat → Byte → Memory
  | [], i, b => [(i, b)]
  | (j, c) :: m, i, b =>
    if i < j then (i, b) :: (j, c) :: m
    else if i = j then (i, b) :: m
    else (j, c) :: putCell m i b

/-- `MemWrite(FRAME+i, 1, b)` (R7, R30); none at an index no frame has. -/
def frameWrite (m : Memory) (i : Nat) (b : Byte) : Option Memory := if i < maxFrame then some (putCell m i b) else none

/-- `for i in ...: MemWrite(FRAME+i, 1, frame[i])`, in increasing order from index `i`. -/
def frameWriteFrom (m : Memory) (i : Nat) : List Byte → Option Memory
  | [] => some m
  | b :: bs =>
    match frameWrite m i b with
    | none => none
    | some m' => frameWriteFrom m' (i + 1) bs

/-- The bytes of FRAME in index order. -/
def frameBytes (m : Memory) : List Byte := m.map Prod.snd

/-- The canonical form of FRAME: indices strictly rising and below MAXFRAME. -/
def Memory.wf (m : Memory) : Bool :=
  decide (m.Pairwise (fun a b => a.1 < b.1)) && m.all (fun c => decide (c.1 < maxFrame))

/-- `res(r)`: the step delivers result `r` (R132). -/
def deliver (r : Result) (s : State) : State :=
  { s with resPort := some r, outbox := s.outbox ++ [.res r] }

/-- The two error results (R7). -/
inductive ErrorResult where
  /-- `raise ParseContract(cause)` (R164) -/
  | parseContract (cause : Rej)
  /-- `raise CmdReserved(cw)` (R165) -/
  | cmdReserved (cw : CommandWord)
deriving DecidableEq, Repr

/-- The result that an error is. -/
def errorResult : ErrorResult → Result
  | .parseContract cause => .parseContract cause
  | .cmdReserved cw => .cmdReserved cw

/-- `raise e`: the error is delivered as the transaction's result; it saves nothing, switches no mode and transfers control
nowhere (R7, R160, R168). The block is ready for the next transaction at once (R169). -/
def raise (e : ErrorResult) (s : State) : State := deliver (errorResult e) s

/-- The command's operands on the operand port (R11, R39). -/
def present (op : Operands) (s : State) : State := { s with op := op }

/-- The command's response, index space RESP (R11, R12, R39). -/
def presentResponse (resp : List Byte) (s : State) : State := { s with resp := resp }

/-- The record of a variant's layout, field k from `read k` (R18, R63, R64); none if a read has no byte. -/
def recordOf (v : Variant) (read : Nat → Option Byte) : Option Named :=
  match v with
  | .orig => do
    let head ← read 0
    let modelNum ← read 1
    let powerState ← read 2
    let presetPattern ← read 3
    let mode ← read 4
    let speed ← read 5
    let red ← read 6
    let green ← read 7
    let blue ← read 8
    let warmWhite ← read 9
    let checkSum ← read 10
    some (.orig { head, modelNum, powerState, presetPattern, mode, speed, red, green, blue, warmWhite, checkSum })
  | .b8 | .b9 => do
    let head ← read 0
    let modelNum ← read 1
    let powerState ← read 2
    let presetPattern ← read 3
    let mode ← read 4
    let speed ← read 5
    let red ← read 6
    let green ← read 7
    let blue ← read 8
    let warmWhite ← read 9
    let versionNumber ← read 10
    let coolWhite ← read 11
    let colorMode ← read 12
    let checkSum ← read 13
    some (.ext { head, modelNum, powerState, presetPattern, mode, speed, red, green, blue, warmWhite, versionNumber,
                 coolWhite, colorMode, checkSum })

/-- The byte lanes `NAMED[0..]` of a record on the result port (R18). -/
def namedLanes : Named → List Byte
  | .orig r =>
    [r.head, r.modelNum, r.powerState, r.presetPattern, r.mode, r.speed, r.red, r.green, r.blue, r.warmWhite, r.checkSum]
  | .ext r =>
    [r.head, r.modelNum, r.powerState, r.presetPattern, r.mode, r.speed, r.red, r.green, r.blue, r.warmWhite,
     r.versionNumber, r.coolWhite, r.colorMode, r.checkSum]

/-- `NAMED_LEN`: how many lanes carry a field (R18). -/
def namedLen : Named → Nat
  | .orig _ => 11
  | .ext _ => 14

/-- A frame constructor of level T: frame the base bytes, write them to FRAME from index 0 in order, return `Frame` (R85; R100
to R102, R110 to R113, R120 to R123). FRAME holds this transaction's frame only (R12). -/
def construct (v : Variant) (base : List Byte) (s : State) : Outcome :=
  match frameWriteFrom [] 0 (frameOf v base) with
  | none => .fault .frameIndex
  | some m => .next (deliver (.frame (frameOf v base)) { s with frame := m })

/-- `VALID` of level T: `return Valid(VALIDATE(v, resp))` (R91). -/
def checkResponse (v : Variant) (s : State) : Outcome :=
  match validate v s.resp with
  | none => .fault .responseIndex
  | some verdict => .next (deliver (.valid verdict) s)

/-- `PARSEGEN(v, resp)` of level T (R90). -/
def parseResponse (v : Variant) (s : State) : Outcome :=
  match validate v s.resp with
  | none => .fault .responseIndex
  | some verdict =>
    if verdict.ok then
      match recordOf v (respRead s.resp) with
      | none => .fault .responseIndex
      | some record => .next (deliver (.named record) s)
    else .next (raise (.parseContract verdict.rej) s)

/-- `return Const(k)` (R105, R106). -/
def returnConst (k : ConstVal) (s : State) : Outcome := .next (deliver (.const k) s)

/-- The text of a `NAME` result under a choice of the open parameter `name_string` (D12, log 13). -/
def nameText (names : NameStrings) : Result → Option String
  | .const (.tag t) => (variantOfVsel t).map names.text
  | _ => none

end Sys2Proof.Machine
end

