-- ==== Sys2Proof/Machine/EightByte.lean ====
section
/-! DEFINITION. The seven operations of the 8-Byte variant (spec/42_8byte.md), level T. -/

namespace Sys2Proof.Machine

/-- `QUERY.8` (R110). -/
def execQuery8 (s : State) : Outcome := construct .b8 [0x81, 0x8A, 0x8B] s

/-- `STCHG.8` (R111). -/
def execStchg8 (s : State) : Outcome := construct .b8 [0x71, onOff s.op.turnOn, 0x0F] s

/-- `LEVELS.8` (R113); index 5 is `op.mode` unchanged, whatever the host means by it (R114). -/
def execLevels8 (s : State) : Outcome :=
  construct .b8 [persistByte s.op.persist, s.op.red, s.op.green, s.op.blue, s.op.warmWhite, s.op.mode, 0x0F] s

/-- `VALID.8` (R115). -/
def execValid8 (s : State) : Outcome := checkResponse .b8 s

/-- `PARSE.8` (R116). -/
def execParse8 (s : State) : Outcome := parseResponse .b8 s

/-- `RLEN.8` (R117). -/
def execRlen8 (s : State) : Outcome := returnConst (.length (BitVec.ofNat 8 (rlen .b8))) s

/-- `NAME.8` (R118). -/
def execName8 (s : State) : Outcome := returnConst (.tag (tag .b8)) s

end Sys2Proof.Machine
end

