-- ==== Sys2Proof/Machine/NineByte.lean ====
section
/-! DEFINITION. The seven operations of the 9-Byte variant (spec/43_9byte.md), level T. -/

namespace Sys2Proof.Machine

/-- `QUERY.9` (R120). -/
def execQuery9 (s : State) : Outcome := construct .b9 [0x81, 0x8A, 0x8B] s

/-- `STCHG.9` (R121). -/
def execStchg9 (s : State) : Outcome := construct .b9 [0x71, onOff s.op.turnOn, 0x0F] s

/-- `LEVELS.9` (R123). -/
def execLevels9 (s : State) : Outcome :=
  construct .b9
    [persistByte s.op.persist, s.op.red, s.op.green, s.op.blue, s.op.warmWhite, s.op.coolWhite, s.op.mode, 0x0F] s

/-- `VALID.9` (R125). -/
def execValid9 (s : State) : Outcome := checkResponse .b9 s

/-- `PARSE.9` (R126). -/
def execParse9 (s : State) : Outcome := parseResponse .b9 s

/-- `RLEN.9` (R127). -/
def execRlen9 (s : State) : Outcome := returnConst (.length (BitVec.ofNat 8 (rlen .b9))) s

/-- `NAME.9` (R128). -/
def execName9 (s : State) : Outcome := returnConst (.tag (tag .b9)) s

end Sys2Proof.Machine
end

