-- ==== Sys2Proof/Machine/Original.lean ====
section
/-! DEFINITION. The seven operations of the Original variant (spec/41_original.md), level T. -/

namespace Sys2Proof.Machine

/-- `QUERY.O` (R100). -/
def execQueryO (s : State) : Outcome := construct .orig [0xEF, 0x01, 0x77] s

/-- `STCHG.O` (R101). -/
def execStchgO (s : State) : Outcome := construct .orig [0xCC, onOff s.op.turnOn, 0x33] s

/-- `LEVELS.O` (R102). -/
def execLevelsO (s : State) : Outcome := construct .orig [0x56, s.op.red, s.op.green, s.op.blue, 0xAA] s

/-- `VALID.O` (R103). -/
def execValidO (s : State) : Outcome := checkResponse .orig s

/-- `PARSE.O` (R104). -/
def execParseO (s : State) : Outcome := parseResponse .orig s

/-- `RLEN.O` (R105). -/
def execRlenO (s : State) : Outcome := returnConst (.length (BitVec.ofNat 8 (rlen .orig))) s

/-- `NAME.O` (R106). -/
def execNameO (s : State) : Outcome := returnConst (.tag (tag .orig)) s

end Sys2Proof.Machine
end

