-- ==== Sys2Proof/Machine/Dispatch.lean ====
section
/-! DEFINITION. One arm per operation: the level-T meaning of each (spec/41_original.md, spec/42_8byte.md, spec/43_9byte.md). -/

namespace Sys2Proof.Machine

/-- The meaning of an operation on the operand port and the response of the state. -/
def exec (i : Instr) (s : State) : Host.Outcome State Fault Refusal :=
  match i with
  | .queryO => Sys2Proof.Machine.execQueryO s
  | .stchgO => Sys2Proof.Machine.execStchgO s
  | .levelsO => Sys2Proof.Machine.execLevelsO s
  | .validO => Sys2Proof.Machine.execValidO s
  | .parseO => Sys2Proof.Machine.execParseO s
  | .rlenO => Sys2Proof.Machine.execRlenO s
  | .nameO => Sys2Proof.Machine.execNameO s
  | .query8 => Sys2Proof.Machine.execQuery8 s
  | .stchg8 => Sys2Proof.Machine.execStchg8 s
  | .levels8 => Sys2Proof.Machine.execLevels8 s
  | .valid8 => Sys2Proof.Machine.execValid8 s
  | .parse8 => Sys2Proof.Machine.execParse8 s
  | .rlen8 => Sys2Proof.Machine.execRlen8 s
  | .name8 => Sys2Proof.Machine.execName8 s
  | .query9 => Sys2Proof.Machine.execQuery9 s
  | .stchg9 => Sys2Proof.Machine.execStchg9 s
  | .levels9 => Sys2Proof.Machine.execLevels9 s
  | .valid9 => Sys2Proof.Machine.execValid9 s
  | .parse9 => Sys2Proof.Machine.execParse9 s
  | .rlen9 => Sys2Proof.Machine.execRlen9 s
  | .name9 => Sys2Proof.Machine.execName9 s

end Sys2Proof.Machine
end

