-- ==== Sys2Proof/Machine/Serial.lean ====
section
/-! DEFINITION. Level S, the byte-serial datapath (spec/44_serial_datapath.md): the labelled steps `cmd` (R133), `tx` (R135), `rx`
(R136), `rx_end` (R137) and `reset` (R138) on the registers of R131. Who takes which step when is Machine/Schedule.lean. -/

namespace Sys2Proof.Machine

/-- The base bytes `BASEBYTE(cw, OPL, 0), BASEBYTE(cw, OPL, 1), ...` in a list whose length is `BASELEN(cw)` (the table of R134);
none for a word that builds no frame. -/
def baseList (cw : CommandWord) (opl : Operands) : Option (List Byte) :=
  match cw.toNat with
  | 0x00 => some [0xEF, 0x01, 0x77]
  | 0x01 => some [0xCC, onOff opl.turnOn, 0x33]
  | 0x02 => some [0x56, opl.red, opl.green, opl.blue, 0xAA]
  | 0x08 => some [0x81, 0x8A, 0x8B]
  | 0x10 => some [0x81, 0x8A, 0x8B]
  | 0x09 => some [0x71, onOff opl.turnOn, 0x0F]
  | 0x11 => some [0x71, onOff opl.turnOn, 0x0F]
  | 0x0A => some [persistByte opl.persist, opl.red, opl.green, opl.blue, opl.warmWhite, opl.mode, 0x0F]
  | 0x12 =>
    some [persistByte opl.persist, opl.red, opl.green, opl.blue, opl.warmWhite, opl.coolWhite, opl.mode, 0x0F]
  | _ => none

/-- `cmd(cw, op)` of a constructor (R133). FRAME holds the bytes of this transaction only (R12; log 10). -/
def startEmit (cw : CommandWord) (op : Operands) (s : State) : State :=
  { s with cw := cw, opl := op, idx := 0, acc := 0, phase := .emit, frame := [], resPort := none }

/-- `cmd(cw, op)` of `VALID` and `PARSE` (R133). -/
def startRecv (cw : CommandWord) (op : Operands) (s : State) : State :=
  { s with cw := cw, opl := op, cnt := 0, acc := 0, last := 0, hok := false, phase := .recv, resPort := none }

/-- The step `cmd(cw, op)` (R133), taken where PHASE = IDLE. -/
def cmdStep (cw : CommandWord) (op : Operands) (s : State) : Outcome :=
  match decode cw with
  | .error _ => .next (raise (.cmdReserved cw) s)
  | .ok i =>
    match i.operation with
    | .rlen => .next (deliver (.const (.length (BitVec.ofNat 8 (rlen i.variant)))) s)
    | .name => .next (deliver (.const (.tag (tag i.variant))) s)
    | .query => .next (startEmit cw op s)
    | .stchg => .next (startEmit cw op s)
    | .levels => .next (startEmit cw op s)
    | .valid => .next (startRecv cw op s)
    | .parse => .next (startRecv cw op s)

/-- The part of `tx(b, last)` that follows the choice of `b` and `last` (R135): FRAME, `IDX`, the label, and the end of the
transaction. -/
def emitByte (b : Byte) (last : Bool) (s : State) : Outcome :=
  match frameWrite s.frame s.idx.toNat b with
  | none => .fault .frameIndex
  | some m =>
    if last then
      .next (deliver (.frame (frameBytes m))
        { s with frame := m, idx := s.idx + 1, outbox := s.outbox ++ [.tx b last], phase := .idle })
    else
      .next { s with frame := m, idx := s.idx + 1, outbox := s.outbox ++ [.tx b last], resPort := none }

/-- The step `tx(b, last)` (R135), taken where PHASE = EMIT. -/
def txStep (s : State) : Outcome :=
  match variantOfVsel (vselOf s.cw), baseList s.cw s.opl with
  | some v, some base =>
    match base[s.idx.toNat]? with
    | some b => emitByte b (!ck v && decide (s.idx.toNat = base.length - 1)) { s with acc := s.acc + b }
    | none => emitByte s.acc true s
  | _, _ => .fault .emitWithoutConstructor

/-- The step `rx(b)` (R136), taken where PHASE = RECV. The tests on `CNT` use its value before the step. The response port stays as
it was (DESIGN CHOICE, log 21). -/
def rxStep (b : Byte) (s : State) : Outcome :=
  match variantOfVsel (vselOf s.cw) with
  | none => .fault .recvWithoutResponse
  | some v =>
    .next { s with
      acc := if 0 < s.cnt.toNat then s.acc + s.last else s.acc
      last := b
      hok := if s.cnt.toNat = hidx v then b == hval v else s.hok
      fbuf := if s.cnt.toNat < 14 then s.fbuf.setIfInBounds s.cnt.toNat b else s.fbuf
      cnt := BitVec.ofNat 4 (min (s.cnt.toNat + 1) 15)
      resPort := none }

/-- The verdict `rx_end` comes to from the registers (R137). -/
def rxVerdict (v : Variant) (s : State) : Verdict :=
  if s.cnt.toNat ≠ rlen v then rejectedLen
  else if s.hok = false then rejectedHead
  else if ck v = true ∧ s.acc ≠ s.last then rejectedCsum s.acc s.last
  else accepted

/-- The step `rx_end` (R137), taken where PHASE = RECV. -/
def rxEndStep (s : State) : Outcome :=
  match variantOfVsel (vselOf s.cw), operationOfOpc (opcOf s.cw) with
  | some v, some .valid => .next (deliver (.valid (rxVerdict v s)) { s with phase := .idle })
  | some v, some .parse =>
    if (rxVerdict v s).ok then
      match recordOf v (fun k => s.fbuf[k]?) with
      | none => .fault .responseIndex
      | some record => .next (deliver (.named record) { s with phase := .idle })
    else .next (raise (.parseContract (rxVerdict v s).rej) { s with phase := .idle })
  | _, _ => .fault .recvWithoutResponse

/-- The step `reset` (R138, R181, R182): the registers take their reset values, a transaction in progress delivers no result,
what has been emitted stays emitted. `FBUF` is unspecified after it: fourteen free bytes (log 8). -/
def resetStep (s : State) : State :=
  { s with
    phase := .idle
    cw := 0
    opl := .zero
    idx := 0
    cnt := 0
    acc := 0
    last := 0
    hok := false
    fbuf := Vector.ofFn (fun k => Config.freeByte (s.draws + k.val))
    draws := s.draws + 14
    resPort := none }

end Sys2Proof.Machine
end

