-- ==== Sys2Proof/Machine/Schedule.lean ====
section
/-! DEFINITION. Which labelled step the block takes next (the enabledness table of spec/44_serial_datapath.md R132) under the
host's offers, and how a command of level T or level S is accepted. The order of the host's offers is data in State (log 2). -/

namespace Sys2Proof.Machine

/-- DESIGN CHOICE (log 21) for what index space RESP holds: a command of level T puts its response there, a `cmd` of level S leaves
what stood there and its `VALID` or `PARSE` takes the response from the `rx` steps only.

Accept a command where PHASE = IDLE: a transaction of level T runs whole (R36), a `cmd` of level S takes R133's step. The
command's operands stand on the port from then on (R39). A reserved word is decided before anything else (R54, R165, R167). -/
def accept : Command → State → Outcome
  | .whole cw op resp, s =>
    match decode cw with
    | .error _ => .next (raise (.cmdReserved cw) (presentResponse resp (present op s)))
    | .ok i => exec i (presentResponse resp (present op s))
  | .serial cw op, s => cmdStep cw op (present op s)

/-- A command offered while PHASE is not IDLE waits (R132; log 3). -/
def hold (c : Command) (s : State) : State := { s with held := s.held ++ [c] }

/-- The next of the host's offers (R132). A `tx` slot that comes while PHASE is not EMIT passes; `rx` and `rx_end` outside RECV
are the host error of R132; `reset` is always enabled. -/
def offer : Event → State → Outcome
  | .command c, s => if s.phase = .idle then accept c s else .next (hold c s)
  | .tx, s => if s.phase = .emit then txStep s else .next s
  | .rx b, s => if s.phase = .recv then rxStep b s else .fault .rxOutsideRecv
  | .rxEnd, s => if s.phase = .recv then rxEndStep s else .fault .rxEndOutsideRecv
  | .reset, s => .next (resetStep s)

/-- One step of the offers, or of the block itself where none is left: in EMIT it emits, in IDLE and RECV it waits (R132, R141,
R196; log 4). -/
def advanceOffers (s : State) : Outcome :=
  match s.inbox with
  | e :: es => offer e { s with inbox := es }
  | [] => if s.phase = .emit then txStep s else .next s

/-- One step of the machine: a held command is taken as soon as PHASE is IDLE (R132), else the offers go on. -/
def advance (s : State) : Outcome :=
  match s.held with
  | c :: cs => if s.phase = .idle then accept c { s with held := cs } else advanceOffers s
  | [] => advanceOffers s

/-- `s` with a command word at the head of the command port of an idle block, on the operands and the response the port holds;
`s` itself where the bits are no command word (log 15). -/
def presentWord (s : State) (nbits w : Nat) : State :=
  match commandWordOfByte (byteOfTableWord nbits w) with
  | .ok cw => { s with phase := .idle, held := .whole cw s.op s.resp :: s.held }
  | .error _ => s

end Sys2Proof.Machine
end

