-- ==== Sys2Proof/Machine/Step.lean ====
section
/-! DEFINITION. The step function, and how a host's check presents a command word (log 15). The bodies are in
Machine/Schedule.lean. -/

namespace Sys2Proof.Machine

/-- One step of the machine (spec/44_serial_datapath.md R132). -/
def step (s : State) : Host.Outcome State Fault Refusal := advance s

/-- `s` with an instruction's word where the next step takes its command from (log 15). -/
def State.withFetchWord (s : State) (nbits w : Nat) : State := presentWord s nbits w

end Sys2Proof.Machine
end

