-- ==== Sys2Proof/Machine/Assembler.lean ====
section
/-! DEFINITION. What an assembler line of spec/30_encoding.md R70 presents at the ports, the pseudo-instructions of R71, and the
offers that run a command at level S (spec/44_serial_datapath.md R150). -/

namespace Sys2Proof.Machine

/-- A byte literal as the byte it names. -/
def byteOf (n : Nat) : Byte := BitVec.ofNat 8 n

/-- The byte of a mode operand: the host applies `MODECODE` (R67, R88). -/
def modeOperandByte : ModeOperand → Byte
  | .code m => modeCode m
  | .literal n => byteOf n

/-- `ON.<v>` is `STCHG.<v> on`, `OFF.<v>` is `STCHG.<v> off` (R71); every other line is itself. -/
def expand : Asm → Asm
  | .on v => .stchg v true
  | .off v => .stchg v false
  | a => a

/-- The command word of a line (the table of R70). -/
def lineWord : Asm → CommandWord
  | .query v => encode (Instr.ofParts v .query)
  | .stchg v _ => encode (Instr.ofParts v .stchg)
  | .levelsO _ _ _ => encode .levelsO
  | .levels8 _ _ _ _ _ _ => encode .levels8
  | .levels9 _ _ _ _ _ _ _ => encode .levels9
  | .valid v _ => encode (Instr.ofParts v .valid)
  | .parse v _ => encode (Instr.ofParts v .parse)
  | .rlen v => encode (Instr.ofParts v .rlen)
  | .name v => encode (Instr.ofParts v .name)
  | .on v => encode (Instr.ofParts v .stchg)
  | .off v => encode (Instr.ofParts v .stchg)
  | .word cw => BitVec.ofNat 5 cw

/-- The operand port under a line: the operands the line writes, and whatever the port held in every other field (R70: "on the
port they may hold anything"; log 19). -/
def lineOperands (port : Operands) : Asm → Operands
  | .stchg _ t => { port with turnOn := t }
  | .on _ => { port with turnOn := true }
  | .off _ => { port with turnOn := false }
  | .levelsO r g b => { port with red := byteOf r, green := byteOf g, blue := byteOf b }
  | .levels8 p r g b ww m =>
    { port with persist := p, red := byteOf r, green := byteOf g, blue := byteOf b, warmWhite := byteOf ww,
                mode := modeOperandByte m }
  | .levels9 p r g b ww cw m =>
    { port with persist := p, red := byteOf r, green := byteOf g, blue := byteOf b, warmWhite := byteOf ww,
                coolWhite := byteOf cw, mode := modeOperandByte m }
  | _ => port

/-- The response a line writes; a line without one leaves what the port held (log 19). -/
def lineResponse (resp : List Byte) : Asm → List Byte
  | .valid _ bytes => bytes.map byteOf
  | .parse _ bytes => bytes.map byteOf
  | _ => resp

/-- The level-T command of a well-formed line; none for a line with a literal out of range (R190). -/
def assemble (a : Asm) (port : Operands) (resp : List Byte) : Option Command :=
  if a.wellFormed then some (.whole (lineWord a) (lineOperands port a) (lineResponse resp a)) else none

/-- The offers that follow a `cmd` so that its transaction runs to its end: for a constructor one `tx` slot per frame byte, for
`VALID` and `PARSE` the response's bytes and `rx_end`, else none (R150). -/
def dataEvents (cw : CommandWord) (resp : List Byte) : List Event :=
  match decode cw with
  | .error _ => []
  | .ok i =>
    match i.operation with
    | .valid => resp.map Event.rx ++ [.rxEnd]
    | .parse => resp.map Event.rx ++ [.rxEnd]
    | o => List.replicate ((frameLength i.variant o).getD 0) .tx

/-- A whole transaction at level S (R150). -/
def serialEvents (cw : CommandWord) (op : Operands) (resp : List Byte) : List Event :=
  .command (.serial cw op) :: dataEvents cw resp

end Sys2Proof.Machine
end

