-- ==== Sys2Proof/Safety.lean ====
section
/-! DEFINITION. What the statements mean by a sound state and a safe run: the invariants of the EMIT and RECV phases
(spec/44_serial_datapath.md R140, R141), well-formed results (spec/10_state.md R14), the end of a run (spec/70 R196). -/

namespace Sys2Proof.Machine

/-- FRAME with `bytes` written from index `i` on. -/
def cellsFrom : Nat → List Byte → Memory
  | _, [] => []
  | i, b :: bs => (i, b) :: cellsFrom (i + 1) bs

/-- `s` after a transaction of level T that delivered `r` and left `m` in FRAME: FRAME, the result port and the host's record of
labels change, every register and every other port is as it was (R19: level T has no registers; R168). -/
def answered (s : State) (m : Memory) (r : Result) : State :=
  { s with frame := m, resPort := some r, outbox := s.outbox ++ [.res r] }

/-- `k` bytes of the frame that `CW` and `OPL` build have been emitted and at least one is still to come (R140). `base` are its
base bytes. -/
def Emitted (v : Variant) (base : List Byte) (k : Nat) (s : State) : Prop :=
  variantOfVsel (vselOf s.cw) = some v ∧ baseList s.cw s.opl = some base ∧ k < (frameOf v base).length ∧
  s.idx.toNat = k ∧ s.acc = csum (base.take k) ∧ s.frame = cellsFrom 0 (base.take k)

/-- The registers after `rx` steps carrying the bytes `r` (R141). -/
def Received (v : Variant) (r : List Byte) (s : State) : Prop :=
  variantOfVsel (vselOf s.cw) = some v ∧
  (operationOfOpc (opcOf s.cw) = some .valid ∨ operationOfOpc (opcOf s.cw) = some .parse) ∧
  s.cnt.toNat = min r.length 15 ∧
  s.last = r.getLast?.getD 0 ∧
  s.acc = csum r.dropLast ∧
  (s.hok = true ↔ r[hidx v]? = some (hval v)) ∧
  ∀ k (_ : k < 14), k < r.length → r[k]? = some s.fbuf[k]

/-- What every state between two steps satisfies: FRAME in canonical form, and in EMIT and RECV the registers in step with the
transaction (R140, R141). -/
def Sound (s : State) : Prop :=
  Memory.wf s.frame = true ∧
  (s.phase = .emit → ∃ v base k, Emitted v base k s) ∧
  (s.phase = .recv → ∃ v r, Received v r s)

/-- A result has the shape R14, R55 and R163 give it. -/
def ResultWf : Result → Prop
  | .frame bytes => bytes.length = 3 ∨ bytes.length = 4 ∨ bytes.length = 5 ∨ bytes.length = 8 ∨ bytes.length = 9
  | .valid v => (v.ok = true ↔ v.rej = .none) ∧ (v.diag.isSome = true ↔ v.rej = .csum)
  | .named _ => True
  | .const (.length k) => k = 11 ∨ k = 14
  | .const (.tag t) => t = 0 ∨ t = 1 ∨ t = 2
  | .parseContract cause => cause ≠ .none
  | .cmdReserved cw => cw.reserved = true

/-- Every result handed to the host so far, and the one on the port, is well formed. -/
def ResultsWf (s : State) : Prop :=
  (∀ r, Output.res r ∈ s.outbox → ResultWf r) ∧ (∀ r, s.resPort = some r → ResultWf r)

/-- The end of a run: PHASE = IDLE and no command offered (R196), be it held or among the host's offers still to come (log 4).
Other offers may be left. -/
def EndOfRun (s : State) : Prop := s.phase = .idle ∧ s.held = [] ∧ ∀ c, Event.command c ∉ s.inbox

/-- A step is safe when it is no fault: the host made no error of R132. -/
def SafeStep (s : State) : Prop := ∀ f, step s ≠ .fault f

/-- The next offer is one that R132 calls a host error: `rx` or `rx_end` where PHASE is not RECV. -/
def HostError (s : State) : Prop :=
  s.phase ≠ .recv ∧ (s.held = [] ∨ s.phase ≠ .idle) ∧
  ((∃ b es, s.inbox = .rx b :: es) ∨ ∃ es, s.inbox = .rxEnd :: es)

/-- The frame bytes among the labels of a run, in the order they were emitted. -/
def emittedBytes (out : List Output) : List Byte :=
  out.filterMap (fun o => match o with | .tx b _ => some b | .res _ => none)

/-- The results among the labels of a run. -/
def resultsOf (out : List Output) : List Result :=
  out.filterMap (fun o => match o with | .res r => some r | .tx _ _ => none)

/-- Which operand fields an operation reads (the table of R53): two ports that agree on them. `resp` is read by `VALID` and
`PARSE` only. -/
def SameReadOperands (i : Instr) (s t : State) : Prop :=
  match i with
  | .stchgO | .stchg8 | .stchg9 => s.op.turnOn = t.op.turnOn
  | .levelsO => s.op.red = t.op.red ∧ s.op.green = t.op.green ∧ s.op.blue = t.op.blue
  | .levels8 =>
    s.op.persist = t.op.persist ∧ s.op.red = t.op.red ∧ s.op.green = t.op.green ∧ s.op.blue = t.op.blue ∧
    s.op.warmWhite = t.op.warmWhite ∧ s.op.mode = t.op.mode
  | .levels9 =>
    s.op.persist = t.op.persist ∧ s.op.red = t.op.red ∧ s.op.green = t.op.green ∧ s.op.blue = t.op.blue ∧
    s.op.warmWhite = t.op.warmWhite ∧ s.op.coolWhite = t.op.coolWhite ∧ s.op.mode = t.op.mode
  | .validO | .valid8 | .valid9 | .parseO | .parse8 | .parse9 => s.resp = t.resp
  | .queryO | .query8 | .query9 | .rlenO | .rlen8 | .rlen9 | .nameO | .name8 | .name9 => True

/-- Two outcomes deliver the same result: both answer a next state, with the same result on its port. -/
def SameResult : Outcome → Outcome → Prop
  | .next s, .next t => s.resPort = t.resPort
  | _, _ => False

end Sys2Proof.Machine
end

