-- ==== Sys2Proof/Certificates/Slice0/Obligations.lean ====
section
/-! DEFINITION. The statements for the provers. Each docstring names the rules of spec/ a statement formalises; a clause that is
the model's own choice names its log entry. -/

open Sys2Proof Sys2Proof.Machine

/-! Level T: what each operation does. -/

/-- R100, R110, R120: `QUERY` is the constant frame of its variant, whatever the ports hold. -/
def Obligations.QueryBuildsConstantFrame : Prop :=
  decode 0x00 = .ok .queryO ∧ decode 0x08 = .ok .query8 ∧ decode 0x10 = .ok .query9 ∧
  ∀ s : State,
    exec .queryO s = .next (answered s [(0, 0xEF), (1, 0x01), (2, 0x77)] (.frame [0xEF, 0x01, 0x77])) ∧
    exec .query8 s =
      .next (answered s [(0, 0x81), (1, 0x8A), (2, 0x8B), (3, 0x96)] (.frame [0x81, 0x8A, 0x8B, 0x96])) ∧
    exec .query9 s =
      .next (answered s [(0, 0x81), (1, 0x8A), (2, 0x8B), (3, 0x96)] (.frame [0x81, 0x8A, 0x8B, 0x96]))

/-- R101, R111, R121: `STCHG` has two results in each variant, one for on and one for off. -/
def Obligations.StateChangeBuildsOnOffFrame : Prop :=
  decode 0x01 = .ok .stchgO ∧ decode 0x09 = .ok .stchg8 ∧ decode 0x11 = .ok .stchg9 ∧
  ∀ s : State,
    (s.op.turnOn = true →
      exec .stchgO s = .next (answered s [(0, 0xCC), (1, 0x23), (2, 0x33)] (.frame [0xCC, 0x23, 0x33])) ∧
      exec .stchg8 s =
        .next (answered s [(0, 0x71), (1, 0x23), (2, 0x0F), (3, 0xA3)] (.frame [0x71, 0x23, 0x0F, 0xA3])) ∧
      exec .stchg9 s =
        .next (answered s [(0, 0x71), (1, 0x23), (2, 0x0F), (3, 0xA3)] (.frame [0x71, 0x23, 0x0F, 0xA3]))) ∧
    (s.op.turnOn = false →
      exec .stchgO s = .next (answered s [(0, 0xCC), (1, 0x24), (2, 0x33)] (.frame [0xCC, 0x24, 0x33])) ∧
      exec .stchg8 s =
        .next (answered s [(0, 0x71), (1, 0x24), (2, 0x0F), (3, 0xA4)] (.frame [0x71, 0x24, 0x0F, 0xA4])) ∧
      exec .stchg9 s =
        .next (answered s [(0, 0x71), (1, 0x24), (2, 0x0F), (3, 0xA4)] (.frame [0x71, 0x24, 0x0F, 0xA4])))

/-- R102: `LEVELS.O` is `[0x56, red, green, blue, 0xAA]`; no other operand reaches the frame. -/
def Obligations.LevelsOriginalBuildsRgbFrame : Prop :=
  decode 0x02 = .ok .levelsO ∧
  ∀ s : State,
    exec .levelsO s =
      .next (answered s [(0, 0x56), (1, s.op.red), (2, s.op.green), (3, s.op.blue), (4, 0xAA)]
        (.frame [0x56, s.op.red, s.op.green, s.op.blue, 0xAA]))

/-- R113: the eight bytes of `LEVELS.8`; the last is the sum of the other seven modulo 256, `op.cool_white` is not in it. -/
def Obligations.LevelsEightBuildsFrame : Prop :=
  decode 0x0A = .ok .levels8 ∧
  ∀ s : State, ∀ p c : Byte,
    p = (if s.op.persist then 0x31 else 0x41) →
    c = BitVec.ofNat 8 ((p.toNat + s.op.red.toNat + s.op.green.toNat + s.op.blue.toNat + s.op.warmWhite.toNat +
      s.op.mode.toNat + 0x0F) % 256) →
    exec .levels8 s =
      .next (answered s
        [(0, p), (1, s.op.red), (2, s.op.green), (3, s.op.blue), (4, s.op.warmWhite), (5, s.op.mode), (6, 0x0F), (7, c)]
        (.frame [p, s.op.red, s.op.green, s.op.blue, s.op.warmWhite, s.op.mode, 0x0F, c]))

/-- R123: the nine bytes of `LEVELS.9`; the last is the sum of the other eight modulo 256. -/
def Obligations.LevelsNineBuildsFrame : Prop :=
  decode 0x12 = .ok .levels9 ∧
  ∀ s : State, ∀ p c : Byte,
    p = (if s.op.persist then 0x31 else 0x41) →
    c = BitVec.ofNat 8 ((p.toNat + s.op.red.toNat + s.op.green.toNat + s.op.blue.toNat + s.op.warmWhite.toNat +
      s.op.coolWhite.toNat + s.op.mode.toNat + 0x0F) % 256) →
    exec .levels9 s =
      .next (answered s
        [(0, p), (1, s.op.red), (2, s.op.green), (3, s.op.blue), (4, s.op.warmWhite), (5, s.op.coolWhite), (6, s.op.mode),
         (7, 0x0F), (8, c)]
        (.frame [p, s.op.red, s.op.green, s.op.blue, s.op.warmWhite, s.op.coolWhite, s.op.mode, 0x0F, c]))

/-- R103: `VALID.O` answers for every byte sequence: length 11, then index 1 = 0x01; never a diagnostic. -/
def Obligations.ValidOriginalVerdict : Prop :=
  decode 0x03 = .ok .validO ∧
  ∀ s : State,
    (s.resp.length ≠ 11 →
      exec .validO s = .next (answered s s.frame (.valid { ok := false, rej := .len, diag := none }))) ∧
    (s.resp.length = 11 → s.resp[1]? ≠ some 0x01 →
      exec .validO s = .next (answered s s.frame (.valid { ok := false, rej := .head, diag := none }))) ∧
    (s.resp.length = 11 → s.resp[1]? = some 0x01 →
      exec .validO s = .next (answered s s.frame (.valid { ok := true, rej := .none, diag := none })))

/-- R115, R125: `VALID.8` and `VALID.9` answer for every byte sequence: length 14, then index 0 = 0x81, then the last byte
equal to the sum of the first thirteen modulo 256; the diagnostic pair exactly on a checksum mismatch. -/
def Obligations.ValidCheckedVerdict : Prop :=
  decode 0x0B = .ok .valid8 ∧ decode 0x13 = .ok .valid9 ∧
  ∀ s : State, ∀ i : Instr, i = .valid8 ∨ i = .valid9 →
    (s.resp.length ≠ 14 →
      exec i s = .next (answered s s.frame (.valid { ok := false, rej := .len, diag := none }))) ∧
    (s.resp.length = 14 → s.resp[0]? ≠ some 0x81 →
      exec i s = .next (answered s s.frame (.valid { ok := false, rej := .head, diag := none }))) ∧
    (∀ e a : Byte, s.resp.length = 14 → s.resp[0]? = some 0x81 →
      e = BitVec.ofNat 8 (((s.resp.take 13).map BitVec.toNat).sum % 256) → s.resp[13]? = some a →
      (e ≠ a →
        exec i s =
          .next (answered s s.frame (.valid { ok := false, rej := .csum, diag := some { expected := e, actual := a } }))) ∧
      (e = a →
        exec i s = .next (answered s s.frame (.valid { ok := true, rej := .none, diag := none }))))

/-- R104 on a valid response: `PARSE.O` maps the eleven bytes onto the eleven fields in order. -/
def Obligations.ParseOriginalReturnsRecord : Prop :=
  decode 0x04 = .ok .parseO ∧
  ∀ (s : State) (b0 b2 b3 b4 b5 b6 b7 b8 b9 b10 : Byte),
    s.resp = [b0, 0x01, b2, b3, b4, b5, b6, b7, b8, b9, b10] →
    exec .parseO s =
      .next (answered s s.frame (.named (.orig
        { head := b0, modelNum := 0x01, powerState := b2, presetPattern := b3, mode := b4, speed := b5, red := b6,
          green := b7, blue := b8, warmWhite := b9, checkSum := b10 })))

/-- R116, R126 on a valid response: `PARSE.8` and `PARSE.9` map the fourteen bytes onto the fourteen fields in order. -/
def Obligations.ParseCheckedReturnsRecord : Prop :=
  decode 0x0C = .ok .parse8 ∧ decode 0x14 = .ok .parse9 ∧
  ∀ (s : State) (b1 b2 b3 b4 b5 b6 b7 b8 b9 b10 b11 b12 b13 : Byte) (i : Instr),
    i = .parse8 ∨ i = .parse9 →
    s.resp = [0x81, b1, b2, b3, b4, b5, b6, b7, b8, b9, b10, b11, b12, b13] →
    b13 = 0x81 + b1 + b2 + b3 + b4 + b5 + b6 + b7 + b8 + b9 + b10 + b11 + b12 →
    exec i s =
      .next (answered s s.frame (.named (.ext
        { head := 0x81, modelNum := b1, powerState := b2, presetPattern := b3, mode := b4, speed := b5, red := b6,
          green := b7, blue := b8, warmWhite := b9, versionNumber := b10, coolWhite := b11, colorMode := b12,
          checkSum := b13 })))

/-- R164: `PARSE` of a response that `VALID` of the same variant rejects delivers `ParseContract` with the code of that rejection,
no record and no diagnostic. That the machine then goes on is log 6. -/
def Obligations.ParseOfInvalidRaisesContract : Prop :=
  ∀ (s : State) (v : Variant) (w : Verdict),
    exec (Instr.ofParts v .valid) s = .next (answered s s.frame (.valid w)) → w.ok = false →
    exec (Instr.ofParts v .parse) s = .next (answered s s.frame (.parseContract w.rej)) ∧
    (w.rej = .len ∨ w.rej = .head ∨ w.rej = .csum)

/-- R90, and property 4 of 95_test_vectors section 2.8: `PARSE` returns a record exactly where `VALID` of the same variant answers
ok, and the record's fields are the response's bytes in order. -/
def Obligations.ParseNamedIffValidOk : Prop :=
  ∀ (s : State) (v : Variant),
    ((∃ record, exec (Instr.ofParts v .parse) s = .next (answered s s.frame (.named record))) ↔
      exec (Instr.ofParts v .valid) s = .next (answered s s.frame (.valid { ok := true, rej := .none, diag := none }))) ∧
    ∀ record, exec (Instr.ofParts v .parse) s = .next (answered s s.frame (.named record)) →
      namedLanes record = s.resp ∧ namedLen record = rlen v

/-- R105, R117, R127: the three state response lengths. -/
def Obligations.ResponseLengthConstants : Prop :=
  decode 0x05 = .ok .rlenO ∧ decode 0x0D = .ok .rlen8 ∧ decode 0x15 = .ok .rlen9 ∧
  ∀ s : State,
    exec .rlenO s = .next (answered s s.frame (.const (.length 11))) ∧
    exec .rlen8 s = .next (answered s s.frame (.const (.length 14))) ∧
    exec .rlen9 s = .next (answered s s.frame (.const (.length 14)))

/-- R106, R118, R128: the three variant tags. -/
def Obligations.NameTags : Prop :=
  decode 0x06 = .ok .nameO ∧ decode 0x0E = .ok .name8 ∧ decode 0x16 = .ok .name9 ∧
  ∀ s : State,
    exec .nameO s = .next (answered s s.frame (.const (.tag 0))) ∧
    exec .name8 s = .next (answered s s.frame (.const (.tag 1))) ∧
    exec .name9 s = .next (answered s s.frame (.const (.tag 2)))

/-- D12, U10: under every choice of three different strings, the texts of two `NAME` results are equal only for equal variants. -/
def Obligations.NameTextsDiffer : Prop :=
  ∀ (names : NameStrings) (v w : Variant) (s : State),
    ∃ r q, exec (Instr.ofParts v .name) s = .next (answered s s.frame r) ∧
      exec (Instr.ofParts w .name) s = .next (answered s s.frame q) ∧
      nameText names r = some (names.text v) ∧ (nameText names r = nameText names q ↔ v = w)

/-- R175, R34 and the frame of every operation: no operation faults; only FRAME (and that only by a constructor, which leaves
exactly its frame there), the result port and the host's record of labels change; and the result has the operation's shape. -/
def Obligations.EveryOperationAnswers : Prop :=
  ∀ (i : Instr) (s : State), ∃ r : Result,
    (match i.operation with
      | .query => ∃ bytes, r = .frame bytes ∧ exec i s = .next (answered s (cellsFrom 0 bytes) r)
      | .stchg => ∃ bytes, r = .frame bytes ∧ exec i s = .next (answered s (cellsFrom 0 bytes) r)
      | .levels => ∃ bytes, r = .frame bytes ∧ exec i s = .next (answered s (cellsFrom 0 bytes) r)
      | .valid => (∃ w, r = .valid w) ∧ exec i s = .next (answered s s.frame r)
      | .parse =>
        ((∃ record, r = .named record) ∨ ∃ cause, r = .parseContract cause) ∧ exec i s = .next (answered s s.frame r)
      | .rlen => (∃ k, r = .const (.length k)) ∧ exec i s = .next (answered s s.frame r)
      | .name => (∃ t, r = .const (.tag t)) ∧ exec i s = .next (answered s s.frame r))

/-! Level T: laws over the operations. -/

/-- R94 with the table of R53: an operand that an operation does not read has no influence on its result. -/
def Obligations.IgnoredOperandsHaveNoInfluence : Prop :=
  ∀ (i : Instr) (s t : State), SameReadOperands i s t → SameResult (exec i s) (exec i t)

/-- R92: the checksum property of every frame the checksummed variants build, and a frame of the Original without it. -/
def Obligations.ChecksumProperty : Prop :=
  (∀ (i : Instr) (s : State), (i.variant = .b8 ∨ i.variant = .b9) →
    (i.operation = .query ∨ i.operation = .stchg ∨ i.operation = .levels) →
    ∃ m : List Byte, m ≠ [] ∧ exec i s = .next (answered s (cellsFrom 0 m) (.frame m)) ∧
      m.getLast? = some (BitVec.ofNat 8 ((m.dropLast.map BitVec.toNat).sum % 256))) ∧
  ∀ s : State, ∃ m : List Byte, exec .queryO s = .next (answered s (cellsFrom 0 m) (.frame m)) ∧
    m.getLast? ≠ some (BitVec.ofNat 8 ((m.dropLast.map BitVec.toNat).sum % 256))

/-- R93: round trip. A correctly checksummed 14-byte response beginning 0x81, and an 11-byte response with 0x01 at index 1, are
valid and parse to a record whose fields are their bytes in order; and the length property. -/
def Obligations.RoundTrip : Prop :=
  (∀ (s : State) (v : Variant), v = .b8 ∨ v = .b9 → s.resp.length = 14 → s.resp[0]? = some 0x81 →
    s.resp[13]? = some (BitVec.ofNat 8 (((s.resp.take 13).map BitVec.toNat).sum % 256)) →
    exec (Instr.ofParts v .valid) s = .next (answered s s.frame (.valid { ok := true, rej := .none, diag := none })) ∧
    ∃ record : NamedExt, exec (Instr.ofParts v .parse) s = .next (answered s s.frame (.named (.ext record))) ∧
      namedLanes (.ext record) = s.resp) ∧
  (∀ s : State, s.resp.length = 11 → s.resp[1]? = some 0x01 →
    exec .validO s = .next (answered s s.frame (.valid { ok := true, rej := .none, diag := none })) ∧
    ∃ record : NamedOrig, exec .parseO s = .next (answered s s.frame (.named (.orig record))) ∧
      namedLanes (.orig record) = s.resp) ∧
  ∀ (s : State) (v : Variant),
    exec (Instr.ofParts v .rlen) s =
      .next (answered s s.frame (.const (.length (if v = .orig then 11 else 14)))) ∧
    (s.resp.length ≠ (if v = .orig then 11 else 14) →
      ∃ rej, exec (Instr.ofParts v .valid) s =
        .next (answered s s.frame (.valid { ok := false, rej := rej, diag := none })))

/-- R95: the 9-Byte variant is the 8-Byte variant but for `LEVELS` and `NAME`. -/
def Obligations.NineByteInheritsEightByte : Prop :=
  ∀ s : State,
    exec .query9 s = exec .query8 s ∧ exec .stchg9 s = exec .stchg8 s ∧ exec .valid9 s = exec .valid8 s ∧
    exec .parse9 s = exec .parse8 s ∧ exec .rlen9 s = exec .rlen8 s ∧
    ¬ SameResult (exec .levels9 s) (exec .levels8 s) ∧ ¬ SameResult (exec .name9 s) (exec .name8 s)

/-- R84: the checksum generator sums natural numbers modulo 256, and level S's recurrence computes it. -/
def Obligations.ChecksumGenerator : Prop :=
  (∀ s : List Byte, (csum s).toNat = (s.map BitVec.toNat).sum % 256) ∧ csum [] = 0 ∧
  ∀ (s : List Byte) (b : Byte), csum (s ++ [b]) = csum s + b ∧ s.foldl (· + ·) 0 = csum s

/-- 40_interface_and_checksum section 3 (R89): the order of the bytes does not matter, and one changed byte always does. -/
def Obligations.ChecksumOrderAndSingleByte : Prop :=
  (∀ s t : List Byte, s.Perm t → csum s = csum t) ∧
  ∀ (s : List Byte) (k : Nat) (b : Byte), k < s.length → s[k]? ≠ some b → csum (s.set k b) ≠ csum s

/-- R85: framing is the identity in the Original variant and appends the checksum in the other two. -/
def Obligations.MessageFraming : Prop :=
  ∀ s : List Byte,
    frameOf .orig s = s ∧
    frameOf .b8 s = s ++ [BitVec.ofNat 8 ((s.map BitVec.toNat).sum % 256)] ∧
    frameOf .b9 s = s ++ [BitVec.ofNat 8 ((s.map BitVec.toNat).sum % 256)] ∧
    ∀ v, (frameOf v s).length = s.length + if ck v then 1 else 0

/-- R55: base bytes, checksum byte and total length of every constructed frame, for every operand value. -/
def Obligations.ConstructedFrameLengths : Prop :=
  ∀ (s : State) (i : Instr) (n total : Nat) (sum : Bool),
    (i, n, sum, total) ∈ ([(.queryO, 3, false, 3), (.stchgO, 3, false, 3), (.levelsO, 5, false, 5), (.query8, 3, true, 4),
      (.query9, 3, true, 4), (.stchg8, 3, true, 4), (.stchg9, 3, true, 4), (.levels8, 7, true, 8),
      (.levels9, 8, true, 9)] : List (Instr × Nat × Bool × Nat)) →
    ∃ base m : List Byte, base.length = n ∧ m = base ++ (if sum then [csum base] else []) ∧ m.length = total ∧
      exec i s = .next (answered s (cellsFrom 0 m) (.frame m))

/-- 95_test_vectors section 2.8 property 7 (from R91 and R89): changing exactly one byte of a valid 14-byte response makes it
invalid. -/
def Obligations.OneChangedByteIsRejected : Prop :=
  ∀ (s : State) (i : Instr) (k : Nat) (b : Byte), i = .valid8 ∨ i = .valid9 →
    exec i s = .next (answered s s.frame (.valid { ok := true, rej := .none, diag := none })) →
    k < s.resp.length → s.resp[k]? ≠ some b →
    ∃ w : Verdict, w.ok = false ∧
      exec i { s with resp := s.resp.set k b } = .next (answered { s with resp := s.resp.set k b } s.frame (.valid w))

/-- 95_test_vectors section 2.8 property 6 (from R55): no constructed frame passes `VALID` of any variant. -/
def Obligations.NoFrameIsAValidResponse : Prop :=
  ∀ (i : Instr) (s : State) (v : Variant), i.operation = .query ∨ i.operation = .stchg ∨ i.operation = .levels →
    ∃ m : List Byte, exec i s = .next (answered s (cellsFrom 0 m) (.frame m)) ∧
      exec (Instr.ofParts v .valid) { s with resp := m } =
        .next (answered { s with resp := m } s.frame (.valid { ok := false, rej := .len, diag := none }))

/-- 95_test_vectors section 2.8 property 2 (from R85 and R91): thirteen bytes beginning 0x81, framed, are a valid response. -/
def Obligations.FramedBodyIsValid : Prop :=
  ∀ (s : State) (body : List Byte) (v : Variant), v = .b8 ∨ v = .b9 → body.length = 13 → body[0]? = some 0x81 →
    s.resp = frameOf v body →
    exec (Instr.ofParts v .valid) s = .next (answered s s.frame (.valid { ok := true, rej := .none, diag := none }))

/-- R86, R87, R88, R15: the operand bytes and the per-variant constants. -/
def Obligations.OperandBytesAndConstants : Prop :=
  onOff true = 0x23 ∧ onOff false = 0x24 ∧ persistByte true = 0x31 ∧ persistByte false = 0x41 ∧
  modeCode .all = 0x00 ∧ modeCode .colors = 0xF0 ∧ modeCode .whites = 0x0F ∧
  rlen .orig = 11 ∧ rlen .b8 = 14 ∧ rlen .b9 = 14 ∧ ck .orig = false ∧ ck .b8 = true ∧ ck .b9 = true ∧
  hidx .orig = 1 ∧ hidx .b8 = 0 ∧ hidx .b9 = 0 ∧ hval .orig = 0x01 ∧ hval .b8 = 0x81 ∧ hval .b9 = 0x81 ∧
  tag .orig = 0 ∧ tag .b8 = 1 ∧ tag .b9 = 2

/-! Encoding. -/

/-- R50, R54: every operation's word decodes to it, and a word that decodes to an operation is that operation's word. -/
def Obligations.DecodeEncodeAgree : Prop :=
  (∀ i : Instr, decode (encode i) = .ok i) ∧ ∀ (cw : CommandWord) (i : Instr), decode cw = .ok i → encode i = cw

/-- The same over byte lists, with what follows the instruction handed back untouched; an upper bit set is no command word
(log 14). -/
def Obligations.DecodeBytesInvertsEncodeBytes : Prop :=
  ∀ (bytes rest : List Byte) (i : Instr), decodeBytes bytes = .ok (i, rest) ↔ bytes = encodeBytes i ++ rest

/-- R70's table, a few rows written out bit by bit: `{vsel, opc}`. -/
def Obligations.DecodeKnownWords : Prop :=
  decode 0b00000 = .ok .queryO ∧ decode 0b00010 = .ok .levelsO ∧ decode 0b01001 = .ok .stchg8 ∧
  decode 0b01011 = .ok .valid8 ∧ decode 0b10010 = .ok .levels9 ∧ decode 0b10100 = .ok .parse9 ∧
  decode 0b10110 = .ok .name9

/-- R54: exactly the eleven listed words name no operation. -/
def Obligations.ReservedWordsAreEleven : Prop :=
  ∀ cw : CommandWord,
    (decode cw = .error (.reserved cw) ↔
      cw ∈ ([0x07, 0x0F, 0x17, 0x18, 0x19, 0x1A, 0x1B, 0x1C, 0x1D, 0x1E, 0x1F] : List CommandWord)) ∧
    (decode cw = .error (.reserved cw) ∨ ∃ i, decode cw = .ok i)

/-! The assembler. -/

/-- R71: the two pseudo-instructions present what their expansions present, and no other line expands. -/
def Obligations.PseudoInstructionsExpand : Prop :=
  ∀ (v : Variant) (port : Operands) (resp : List Byte),
    assemble (.on v) port resp = assemble (.stchg v true) port resp ∧
    assemble (.off v) port resp = assemble (.stchg v false) port resp ∧
    expand (.on v) = .stchg v true ∧ expand (.off v) = .stchg v false ∧
    ∀ a : Asm, expand a ≠ a → ∃ w, a = .on w ∨ a = .off w

/-- 30_encoding section 5 (R70): the command every line presents, with its word from the table, the operands it names and the
response it names. MODEL'S CHOICE (log 19): an operand that a line does not name keeps what the port held, and a line with a
literal out of range presents nothing (R190, D5). The last clause is the bare word of 95_test_vectors section 3.4. -/
def Obligations.AssembledLinesPresentTheirOperands : Prop :=
  ∀ (port : Operands) (resp : List Byte),
    (∀ (v : Variant) (w : CommandWord),
      (v, w) ∈ ([(.orig, 0x00), (.b8, 0x08), (.b9, 0x10)] : List (Variant × CommandWord)) →
      assemble (.query v) port resp = some (.whole w port resp) ∧
      (∀ t, assemble (.stchg v t) port resp = some (.whole (w + 1) { port with turnOn := t } resp)) ∧
      (∀ bytes : List Nat, (∀ n ∈ bytes, n < 256) →
        assemble (.valid v bytes) port resp = some (.whole (w + 3) port (bytes.map (BitVec.ofNat 8))) ∧
        assemble (.parse v bytes) port resp = some (.whole (w + 4) port (bytes.map (BitVec.ofNat 8)))) ∧
      (∀ bytes : List Nat, (∃ n ∈ bytes, 256 ≤ n) →
        assemble (.valid v bytes) port resp = none ∧ assemble (.parse v bytes) port resp = none) ∧
      assemble (.rlen v) port resp = some (.whole (w + 5) port resp) ∧
      assemble (.name v) port resp = some (.whole (w + 6) port resp)) ∧
    (∀ r g b : Nat,
      (r < 256 ∧ g < 256 ∧ b < 256 →
        assemble (.levelsO r g b) port resp =
          some (.whole 0x02 { port with red := BitVec.ofNat 8 r, green := BitVec.ofNat 8 g, blue := BitVec.ofNat 8 b } resp)) ∧
      (256 ≤ r ∨ 256 ≤ g ∨ 256 ≤ b → assemble (.levelsO r g b) port resp = none)) ∧
    (∀ (p : Bool) (r g b ww cool mb : Nat) (m : ModeOperand),
      mb = (match m with | .code .all => 0x00 | .code .colors => 0xF0 | .code .whites => 0x0F | .literal n => n) →
      (r < 256 ∧ g < 256 ∧ b < 256 ∧ ww < 256 ∧ mb < 256 →
        assemble (.levels8 p r g b ww m) port resp =
          some (.whole 0x0A { port with persist := p, red := BitVec.ofNat 8 r, green := BitVec.ofNat 8 g,
                                        blue := BitVec.ofNat 8 b, warmWhite := BitVec.ofNat 8 ww,
                                        mode := BitVec.ofNat 8 mb } resp) ∧
        (cool < 256 →
          assemble (.levels9 p r g b ww cool m) port resp =
            some (.whole 0x12 { port with persist := p, red := BitVec.ofNat 8 r, green := BitVec.ofNat 8 g,
                                          blue := BitVec.ofNat 8 b, warmWhite := BitVec.ofNat 8 ww,
                                          coolWhite := BitVec.ofNat 8 cool, mode := BitVec.ofNat 8 mb } resp))) ∧
      (256 ≤ r ∨ 256 ≤ g ∨ 256 ≤ b ∨ 256 ≤ ww ∨ 256 ≤ mb →
        assemble (.levels8 p r g b ww m) port resp = none ∧ assemble (.levels9 p r g b ww cool m) port resp = none) ∧
      (256 ≤ cool → assemble (.levels9 p r g b ww cool m) port resp = none)) ∧
    ∀ n : Nat,
      (n < 32 → assemble (.word n) port resp = some (.whole (BitVec.ofNat 5 n) port resp)) ∧
      (32 ≤ n → assemble (.word n) port resp = none)

/-- 30_encoding section 5 (R70) with R113: a `LEVELS.8` line, taken by an idle block, builds the frame of its operands with any of
its modes, whatever the port held before (log 19); and a line with a literal above 255 is refused (70_reset_and_hazards R190,
D5). -/
def Obligations.AssembledLevelsEightRuns : Prop :=
  (∀ (s : State) (p : Bool) (r g b ww mb : Nat) (m : ModeOperand) (c : Command) (es : List Event),
    mb = (match m with | .code .all => 0x00 | .code .colors => 0xF0 | .code .whites => 0x0F | .literal n => n) →
    r < 256 → g < 256 → b < 256 → ww < 256 → mb < 256 → s.phase = .idle → s.held = [] → s.inbox = .command c :: es →
    assemble (.levels8 p r g b ww m) s.op s.resp = some c →
    ∃ t, step s = .next t ∧
      t.resPort = some (.frame [if p then 0x31 else 0x41, BitVec.ofNat 8 r, BitVec.ofNat 8 g, BitVec.ofNat 8 b,
        BitVec.ofNat 8 ww, BitVec.ofNat 8 mb, 0x0F,
        BitVec.ofNat 8 (((if p then 0x31 else 0x41) + r + g + b + ww + mb + 0x0F) % 256)])) ∧
  ∀ (p : Bool) (r g b ww : Nat) (m : ModeOperand) (port : Operands) (resp : List Byte),
    (256 ≤ r ∨ 256 ≤ g ∨ 256 ≤ b ∨ 256 ≤ ww ∨ ∃ n, m = .literal n ∧ 256 ≤ n) →
    assemble (.levels8 p r g b ww m) port resp = none

/-! FRAME. -/

/-- 20_memory section 1 (R30), 00_scope R7: a write to FRAME is read back at its index, leaves every other index alone, and is
refused at an index no frame has (log 10). -/
def Obligations.FrameWriteReadsBack : Prop :=
  ∀ (m : Memory) (i : Nat) (b : Byte),
    (i < 9 → ∃ m', frameWrite m i b = some m' ∧ frameRead m' i = some b ∧ ∀ j, j ≠ i → frameRead m' j = frameRead m j) ∧
    (9 ≤ i → frameWrite m i b = none)

/-- R85 over FRAME: after a constructor, FRAME reads byte k of the frame at index k and has no byte past it, whatever it held
before. -/
def Obligations.ConstructorLeavesExactlyItsFrame : Prop :=
  ∀ (i : Instr) (s : State), i.operation = .query ∨ i.operation = .stchg ∨ i.operation = .levels →
    ∃ t m, exec i s = .next t ∧ t.resPort = some (.frame m) ∧ (∀ k, frameRead t.frame k = m[k]?) ∧ Memory.wf t.frame = true

/-- R30, R32 at level S: in a transaction each `tx` step writes FRAME at `IDX`, an index not written before, and nowhere else, and
counts `IDX` up by one; the byte written is the byte emitted. Every other step in EMIT leaves FRAME alone. So each index is written
once, in increasing order (that FRAME is empty where the transaction begins is log 10, in `TransactionClearsPorts`). -/
def Obligations.EachFrameIndexWrittenOnce : Prop :=
  ∀ s t : State, Sound s → s.phase = .emit → step s = .next t →
    ((s.inbox = [] ∨ ∃ es, s.inbox = .tx :: es) →
      t.idx.toNat = s.idx.toNat + 1 ∧ (∀ k, s.idx.toNat ≤ k → frameRead s.frame k = none) ∧
      (∃ b, frameRead t.frame s.idx.toNat = some b ∧ emittedBytes t.outbox = emittedBytes s.outbox ++ [b]) ∧
      ∀ k, k ≠ s.idx.toNat → frameRead t.frame k = frameRead s.frame k) ∧
    ∀ e es, s.inbox = e :: es → e ≠ .tx → t.frame = s.frame ∧ t.outbox = s.outbox

/-! The step. -/

/-- A command of level T whose word decodes is run by one step: `exec` of the operation on the command's operands and response
(20_memory R39), the command taken from the offers or, first, from the command port (44 R132). The last clause is how the host's
check presents a word (log 15). -/
def Obligations.StepRunsDecodedInstruction : Prop :=
  (∀ (s : State) (cw : CommandWord) (op : Operands) (resp : List Byte) (i : Instr) (es : List Event),
    decode cw = .ok i → s.phase = .idle → s.held = [] → s.inbox = .command (.whole cw op resp) :: es →
    step s = exec i { s with inbox := es, op := op, resp := resp }) ∧
  (∀ (s : State) (cw : CommandWord) (op : Operands) (resp : List Byte) (i : Instr) (cs : List Command),
    decode cw = .ok i → s.phase = .idle → s.held = .whole cw op resp :: cs →
    step s = exec i { s with held := cs, op := op, resp := resp }) ∧
  ∀ (s : State) (nbits w : Nat) (i : Instr), decodeTableWord nbits w = some i →
    step (s.withFetchWord nbits w) = exec i { s with phase := .idle }

/-- R165: a reserved word, offered at either level, delivers `CmdReserved(cw)` and changes no register. -/
def Obligations.ReservedWordChangesNothing : Prop :=
  ∀ (s : State) (cw : CommandWord) (op : Operands) (resp : List Byte) (es : List Event),
    cw.reserved = true → s.phase = .idle → s.held = [] →
    (s.inbox = .command (.serial cw op) :: es →
      step s = .next (answered { s with inbox := es, op := op } s.frame (.cmdReserved cw))) ∧
    (s.inbox = .command (.whole cw op resp) :: es →
      step s = .next (answered { s with inbox := es, op := op, resp := resp } s.frame (.cmdReserved cw)))

/-- R133: the step `cmd(cw, op)`, for each operation. What FRAME and the result port hold while a transaction runs is not in the
rule: `TransactionClearsPorts` says what the model does. -/
def Obligations.CommandStep : Prop :=
  ∀ (s : State) (cw : CommandWord) (op : Operands) (es : List Event),
    s.phase = .idle → s.held = [] → s.inbox = .command (.serial cw op) :: es →
    (cw.reserved = true →
      step s = .next (answered { s with inbox := es, op := op } s.frame (.cmdReserved cw))) ∧
    ∀ i, decode cw = .ok i →
      match i.operation with
      | .rlen =>
        step s = .next (answered { s with inbox := es, op := op } s.frame
          (.const (.length (BitVec.ofNat 8 (rlen i.variant)))))
      | .name => step s = .next (answered { s with inbox := es, op := op } s.frame (.const (.tag (tag i.variant))))
      | .query | .stchg | .levels =>
        ∃ t, step s = .next t ∧
          t = { s with inbox := es, op := op, cw := cw, opl := op, idx := 0, acc := 0, phase := .emit, frame := t.frame,
                       resPort := t.resPort }
      | .valid | .parse =>
        ∃ t, step s = .next t ∧
          t = { s with inbox := es, op := op, cw := cw, opl := op, cnt := 0, acc := 0, last := 0, hok := false,
                       phase := .recv, resPort := t.resPort }

/-- MODEL'S CHOICE (log 9, 10; from R12 and R181): a `cmd` that opens an EMIT phase empties FRAME, one that opens a RECV phase
leaves it, and no result is pending after either, after a `tx` that is not the last, or after an `rx`; so none is pending while a
transaction is in progress: every step keeps that. -/
def Obligations.TransactionClearsPorts : Prop :=
  (∀ (s t : State) (cw : CommandWord) (op : Operands) (es : List Event),
    s.phase = .idle → s.held = [] → s.inbox = .command (.serial cw op) :: es → step s = .next t →
    (t.phase = .emit → t.resPort = none ∧ ∀ k, frameRead t.frame k = none) ∧
    (t.phase = .recv → t.resPort = none ∧ ∀ k, frameRead t.frame k = frameRead s.frame k)) ∧
  (∀ s t : State, s.phase = .emit → (s.inbox = [] ∨ ∃ es, s.inbox = .tx :: es) → step s = .next t → t.phase = .emit →
    t.resPort = none) ∧
  (∀ (s t : State) (b : Byte) (es : List Event), s.phase = .recv → s.inbox = .rx b :: es → step s = .next t →
    t.resPort = none) ∧
  ∀ s t : State, (s.phase ≠ .idle → s.resPort = none) → step s = .next t → t.phase ≠ .idle → t.resPort = none

/-- R135: the step `tx(b, last)`, in a slot of the host's (first clause) or with no offer left (second); `t` is the state with the
slot taken. -/
def Obligations.TransmitStep : Prop :=
  ∀ (s t : State) (v : Variant) (base : List Byte),
    s.phase = .emit → variantOfVsel (vselOf s.cw) = some v → baseList s.cw s.opl = some base → s.idx.toNat < 9 →
    ((∃ es, s.inbox = .tx :: es ∧ t = { s with inbox := es }) ∨ (s.inbox = [] ∧ t = s)) →
    (∀ b, base[s.idx.toNat]? = some b →
      ∃ m, frameWrite s.frame s.idx.toNat b = some m ∧
        ((ck v = true ∨ s.idx.toNat ≠ base.length - 1) →
          ∃ port, step s = .next { t with acc := s.acc + b, frame := m, idx := s.idx + 1,
                                          outbox := s.outbox ++ [.tx b false], resPort := port }) ∧
        (ck v = false → s.idx.toNat = base.length - 1 →
          step s = .next { t with acc := s.acc + b, frame := m, idx := s.idx + 1, phase := .idle,
                                  outbox := s.outbox ++ [.tx b true] ++ [.res (.frame (m.map Prod.snd))],
                                  resPort := some (.frame (m.map Prod.snd)) })) ∧
    (base.length ≤ s.idx.toNat →
      ∃ m, frameWrite s.frame s.idx.toNat s.acc = some m ∧
        step s = .next { t with frame := m, idx := s.idx + 1, phase := .idle,
                                outbox := s.outbox ++ [.tx s.acc true] ++ [.res (.frame (m.map Prod.snd))],
                                resPort := some (.frame (m.map Prod.snd)) })

/-- R136: the step `rx(b)`; every test on `CNT` uses its value before the step. -/
def Obligations.ReceiveStep : Prop :=
  ∀ (s : State) (v : Variant) (b : Byte) (es : List Event),
    s.phase = .recv → variantOfVsel (vselOf s.cw) = some v → s.inbox = .rx b :: es →
    ∃ t, step s = .next t ∧
      t.acc = (if 0 < s.cnt.toNat then s.acc + s.last else s.acc) ∧ t.last = b ∧
      t.hok = (if s.cnt.toNat = hidx v then decide (b = hval v) else s.hok) ∧
      (∀ k (_ : k < 14), t.fbuf[k] = if k = s.cnt.toNat then b else s.fbuf[k]) ∧
      t.cnt.toNat = min (s.cnt.toNat + 1) 15 ∧
      t = { s with inbox := es, acc := t.acc, last := t.last, hok := t.hok, fbuf := t.fbuf, cnt := t.cnt,
                   resPort := t.resPort }

/-- R137: the step `rx_end` delivers the verdict of `CNT`, `HOK`, `ACC`, `LAST`, or the record of FBUF, and returns PHASE to
IDLE. -/
def Obligations.ReceiveEndStep : Prop :=
  ∀ (s : State) (v : Variant) (es : List Event) (w : Verdict),
    s.phase = .recv → variantOfVsel (vselOf s.cw) = some v → s.inbox = .rxEnd :: es →
    w = (if s.cnt.toNat ≠ rlen v then { ok := false, rej := .len, diag := none }
      else if s.hok = false then { ok := false, rej := .head, diag := none }
      else if ck v = true ∧ s.acc ≠ s.last then
        { ok := false, rej := .csum, diag := some { expected := s.acc, actual := s.last } }
      else { ok := true, rej := .none, diag := none }) →
    (operationOfOpc (opcOf s.cw) = some .valid →
      step s = .next (answered { s with inbox := es, phase := .idle } s.frame (.valid w))) ∧
    (operationOfOpc (opcOf s.cw) = some .parse →
      (w.ok = false →
        step s = .next (answered { s with inbox := es, phase := .idle } s.frame (.parseContract w.rej))) ∧
      (w.ok = true → ∃ record,
        step s = .next (answered { s with inbox := es, phase := .idle } s.frame (.named record)) ∧
        namedLanes record = s.fbuf.toList.take (rlen v) ∧ (v = .orig ↔ ∃ r, record = .orig r)))

/-- R138, R181: the step `reset`, in every phase: the registers and the result port; what FBUF holds after it is open, and no label
is handed out. What the ports, FRAME and the held commands hold after it is not in the rules: `ResetLeavesPorts` says what the
model does. -/
def Obligations.ResetStep : Prop :=
  ∀ (s : State) (es : List Event), (s.held = [] ∨ s.phase ≠ .idle) → s.inbox = .reset :: es →
    ∃ t : State, step s = .next t ∧ t.phase = .idle ∧ t.cw = 0 ∧ t.opl = .zero ∧ t.idx = 0 ∧ t.cnt = 0 ∧ t.acc = 0 ∧
      t.last = 0 ∧ t.hok = false ∧ t.resPort = none ∧ t.outbox = s.outbox ∧ t.inbox = es

/-- MODEL'S CHOICE (log 3, 9): a `reset` step leaves the operand port, the response, FRAME and the held commands as they were. -/
def Obligations.ResetLeavesPorts : Prop :=
  ∀ (s t : State) (es : List Event), (s.held = [] ∨ s.phase ≠ .idle) → s.inbox = .reset :: es → step s = .next t →
    t.op = s.op ∧ t.resp = s.resp ∧ t.held = s.held ∧ ∀ k, frameRead t.frame k = frameRead s.frame k

/-- R181: the reset state, in every register whose reset value the spec gives. -/
def Obligations.ResetState : Prop :=
  State.reset.phase = .idle ∧ State.reset.cw = 0 ∧
  State.reset.opl = { turnOn := false, persist := false, red := 0, green := 0, blue := 0, warmWhite := 0, coolWhite := 0,
                      mode := 0 } ∧
  State.reset.idx = 0 ∧ State.reset.cnt = 0 ∧ State.reset.acc = 0 ∧ State.reset.last = 0 ∧ State.reset.hok = false ∧
  State.reset.resPort = none

/-- R132: a command offered while PHASE is not IDLE is held, and is taken, oldest first and before any other offer, once PHASE is
IDLE. The queue's order is log 3. -/
def Obligations.CommandWaitsWhileBusy : Prop :=
  (∀ (s : State) (c : Command) (es : List Event), s.phase ≠ .idle → s.inbox = .command c :: es →
    step s = .next { s with inbox := es, held := s.held ++ [c] }) ∧
  ∀ (s : State) (c : Command) (cs : List Command) (es : List Event), s.phase = .idle → s.held = c :: cs → s.inbox = es →
    ∀ t : State, t = { s with held := [], inbox := .command c :: es } →
      ∃ u : State, step t = .next u ∧ step s = .next { u with held := cs }

/-- R196, at level S. An end of a run is left by no step: no step from it delivers or emits anything or writes FRAME, and it leads
to an end again; only a `reset` among the offers changes a register there, and with no offer at all the machine stays. EMIT and
RECV are no ends: with nothing offered EMIT goes on emitting and RECV waits (R141; log 4). -/
def Obligations.EndOfRunStays : Prop :=
  (∀ s t : State, EndOfRun s → step s = .next t →
    EndOfRun t ∧ t.outbox = s.outbox ∧ t.frame = s.frame ∧
    (t = { s with inbox := s.inbox.tail } ∨ ∃ es, s.inbox = .reset :: es)) ∧
  (∀ s : State, EndOfRun s → s.inbox = [] → step s = .next s) ∧
  (∀ s : State, EndOfRun s → s.phase ≠ .emit ∧ s.phase ≠ .recv) ∧
  (∀ s : State, s.phase = .recv → s.inbox = [] → step s = .next s) ∧
  ∀ s : State, Sound s → s.phase = .emit → s.inbox = [] → ∃ t, step s = .next t ∧ t.idx = s.idx + 1

/-! Invariants and runs. -/

/-- The reset state is sound, and its results are well formed. -/
def Obligations.ResetIsSound : Prop := Sound State.reset ∧ ResultsWf State.reset

/-- R140, R141 as one invariant that every step keeps, in every phase and under every offer. -/
def Obligations.StepKeepsSound : Prop := ∀ s t : State, Sound s → step s = .next t → Sound t

/-- R14, R55, R163: every result a step delivers has the shape the spec gives it. -/
def Obligations.StepKeepsResultsWellFormed : Prop :=
  ∀ s t : State, Sound s → ResultsWf s → step s = .next t → ResultsWf t

/-- From a sound state the machine has a next state exactly where the host does not offer `rx` or `rx_end` outside RECV (R132; log
5). That nothing else stops is the MODEL'S CHOICE in its log entries: a `tx` slot outside EMIT passes (log 2), held commands go
first (log 3), a step with nothing offered answers (log 4), `PARSE` of an invalid response goes on, where R164 and U1 say fault for
a model (log 6), and reserved words answer (log 7). -/
def Obligations.OnlyHostErrorsStop : Prop :=
  ∀ s : State, Sound s → ((∃ t, step s = .next t) ↔ ¬ HostError s)

/-- R140: after `cmd` and k `tx` steps of a constructor, `IDX = k`, `ACC` is the checksum of the first k base bytes and exactly
those have been emitted; after as many steps as the frame is long the whole frame has been emitted and PHASE is IDLE. -/
def Obligations.EmitPhaseInvariant : Prop :=
  ∀ (s : State) (cw : CommandWord) (op : Operands) (i : Instr) (base : List Byte) (es : List Event),
    decode cw = .ok i → baseList cw op = some base → s.phase = .idle → s.held = [] →
    (∀ k, k ≤ base.length → s.inbox = .command (.serial cw op) :: (List.replicate k .tx ++ es) →
      ∃ t, Host.Core.run core (k + 1) s = .next t ∧ t.inbox = es ∧ t.idx.toNat = k ∧ t.acc = csum (base.take k) ∧
        emittedBytes t.outbox = emittedBytes s.outbox ++ base.take k ∧
        (k < (frameOf i.variant base).length → t.phase = .emit ∧ resultsOf t.outbox = resultsOf s.outbox)) ∧
    (s.inbox = .command (.serial cw op) :: (List.replicate (frameOf i.variant base).length .tx ++ es) →
      ∃ t, Host.Core.run core ((frameOf i.variant base).length + 1) s = .next t ∧ t.inbox = es ∧ t.phase = .idle ∧
        emittedBytes t.outbox = emittedBytes s.outbox ++ frameOf i.variant base ∧
        resultsOf t.outbox = resultsOf s.outbox ++ [.frame (frameOf i.variant base)])

/-- R141: after `cmd` of `VALID` or `PARSE` and `rx` steps carrying the bytes r, the registers hold what the rule says, nothing has
been delivered, the verdict they give is `VALIDATE(v, r)` and the record that of r; and only `rx_end` and `reset` end a RECV
phase. -/
def Obligations.ReceivePhaseInvariant : Prop :=
  (∀ (s : State) (cw : CommandWord) (op : Operands) (i : Instr) (r : List Byte) (es : List Event),
    decode cw = .ok i → i.operation = .valid ∨ i.operation = .parse → s.phase = .idle → s.held = [] →
    s.inbox = .command (.serial cw op) :: (r.map Event.rx ++ es) →
    ∃ t, Host.Core.run core (r.length + 1) s = .next t ∧ t.phase = .recv ∧ t.inbox = es ∧ t.outbox = s.outbox ∧
      Received i.variant r t ∧ validate i.variant r = some (rxVerdict i.variant t) ∧
      (r.length = rlen i.variant →
        recordOf i.variant (fun k => t.fbuf[k]?) = recordOf i.variant (respRead r))) ∧
  ∀ s t : State, s.phase = .recv → step s = .next t → t.phase ≠ .recv →
    t.phase = .idle ∧ ∃ es, s.inbox = .rxEnd :: es ∨ s.inbox = .reset :: es

/-- R150: for every command word, operand record and response, from every idle state, the level-S run delivers exactly one
result, leaves PHASE = IDLE, the later offers untouched, and in FRAME what level T leaves there; that result is the one level T
delivers from the same and from any other idle state `w`. -/
def Obligations.SerialRefinesTransaction : Prop :=
  ∀ (s : State) (cw : CommandWord) (op : Operands) (resp : List Byte) (es : List Event),
    s.phase = .idle → s.held = [] → s.inbox = serialEvents cw op resp ++ es →
    ∃ (t u : State) (r : Result),
      Host.Core.run core (serialEvents cw op resp).length s = .next t ∧
      step { s with inbox := [.command (.whole cw op resp)] } = .next u ∧
      u.resPort = some r ∧ t.resPort = some r ∧ resultsOf t.outbox = resultsOf s.outbox ++ [r] ∧
      t.phase = .idle ∧ t.held = [] ∧ t.inbox = es ∧ t.frame = u.frame ∧
      ∀ w : State, w.phase = .idle → w.held = [] →
        ∃ x, step { w with inbox := [.command (.whole cw op resp)] } = .next x ∧ x.resPort = some r

/-- R20, R36: the result of a transaction at either level depends on its word, operands and response only: not on any register,
not on what was delivered before, not on what the ports held. -/
def Obligations.ResultIndependentOfHistory : Prop :=
  ∀ (s t : State) (cw : CommandWord) (op : Operands) (resp : List Byte),
    s.phase = .idle → t.phase = .idle → s.held = [] → t.held = [] →
    (s.inbox = serialEvents cw op resp → t.inbox = serialEvents cw op resp →
      SameResult (Host.Core.run core (serialEvents cw op resp).length s)
        (Host.Core.run core (serialEvents cw op resp).length t)) ∧
    (s.inbox = [.command (.whole cw op resp)] → t.inbox = [.command (.whole cw op resp)] →
      SameResult (step s) (step t))

/-- R140, last sentence: from every sound state in EMIT, whatever commands are held, the block, left alone, emits the rest of the
frame that CW and OPL give, within nine steps, and delivers that frame. -/
def Obligations.EmitPhaseEnds : Prop :=
  ∀ (s : State) (v : Variant) (base : List Byte), Sound s → s.phase = .emit → s.inbox = [] →
    variantOfVsel (vselOf s.cw) = some v → baseList s.cw s.opl = some base →
    ∃ (n : Nat) (t : State), n = (frameOf v base).length - s.idx.toNat ∧ n ≤ 9 ∧ Host.Core.run core n s = .next t ∧
      t.phase = .idle ∧ t.held = s.held ∧ t.frame = cellsFrom 0 (frameOf v base) ∧
      t.resPort = some (.frame (frameOf v base)) ∧
      emittedBytes t.outbox = emittedBytes s.outbox ++ (frameOf v base).drop s.idx.toNat ∧
      resultsOf t.outbox = resultsOf s.outbox ++ [.frame (frameOf v base)]

/-- R182: a `reset` in any phase abandons the transaction: nothing is delivered for it, what was emitted stays emitted, and the
transaction that follows gives the result it would give to an idle block. -/
def Obligations.ResetAbandonsTransaction : Prop :=
  ∀ (s : State) (cw : CommandWord) (op : Operands) (resp : List Byte),
    s.held = [] → s.inbox = .reset :: serialEvents cw op resp →
    ∃ (a t u : State) (r : Result),
      step s = .next a ∧ a.phase = .idle ∧ a.outbox = s.outbox ∧ a.resPort = none ∧
      Host.Core.run core (serialEvents cw op resp).length a = .next t ∧
      step { State.reset with inbox := [.command (.whole cw op resp)] } = .next u ∧
      u.resPort = some r ∧ t.resPort = some r ∧ resultsOf t.outbox = resultsOf s.outbox ++ [r]

/-- R39, R187: while a transaction is in progress a change of the operand port or of the response has no effect on it: `tx`, `rx`
and `rx_end` go by the latched copies. -/
def Obligations.PortsAreLatched : Prop :=
  ∀ (s t : State) (op : Operands) (resp : List Byte), s.phase ≠ .idle →
    (∀ c es, s.inbox ≠ .command c :: es) →
    step s = .next t → step { s with op := op, resp := resp } = .next { t with op := op, resp := resp }
end

