-- ==== Sys2Proof/Laws/State.lean ====
section
/-! SUPPORT. One lemma per field per named update of State: what the update leaves in the field. -/

namespace Sys2Proof.Machine

@[simp] theorem deliver_phase (r : Result) (s : State) : (deliver r s).phase = s.phase := rfl
@[simp] theorem deliver_cw (r : Result) (s : State) : (deliver r s).cw = s.cw := rfl
@[simp] theorem deliver_opl (r : Result) (s : State) : (deliver r s).opl = s.opl := rfl
@[simp] theorem deliver_idx (r : Result) (s : State) : (deliver r s).idx = s.idx := rfl
@[simp] theorem deliver_cnt (r : Result) (s : State) : (deliver r s).cnt = s.cnt := rfl
@[simp] theorem deliver_acc (r : Result) (s : State) : (deliver r s).acc = s.acc := rfl
@[simp] theorem deliver_last (r : Result) (s : State) : (deliver r s).last = s.last := rfl
@[simp] theorem deliver_hok (r : Result) (s : State) : (deliver r s).hok = s.hok := rfl
@[simp] theorem deliver_fbuf (r : Result) (s : State) : (deliver r s).fbuf = s.fbuf := rfl
@[simp] theorem deliver_op (r : Result) (s : State) : (deliver r s).op = s.op := rfl
@[simp] theorem deliver_resp (r : Result) (s : State) : (deliver r s).resp = s.resp := rfl
@[simp] theorem deliver_frame (r : Result) (s : State) : (deliver r s).frame = s.frame := rfl
@[simp] theorem deliver_resPort (r : Result) (s : State) : (deliver r s).resPort = some r := rfl
@[simp] theorem deliver_held (r : Result) (s : State) : (deliver r s).held = s.held := rfl
@[simp] theorem deliver_inbox (r : Result) (s : State) : (deliver r s).inbox = s.inbox := rfl
@[simp] theorem deliver_outbox (r : Result) (s : State) : (deliver r s).outbox = s.outbox ++ [.res r] := rfl
@[simp] theorem deliver_draws (r : Result) (s : State) : (deliver r s).draws = s.draws := rfl

@[simp] theorem raise_phase (e : ErrorResult) (s : State) : (raise e s).phase = s.phase := rfl
@[simp] theorem raise_cw (e : ErrorResult) (s : State) : (raise e s).cw = s.cw := rfl
@[simp] theorem raise_opl (e : ErrorResult) (s : State) : (raise e s).opl = s.opl := rfl
@[simp] theorem raise_idx (e : ErrorResult) (s : State) : (raise e s).idx = s.idx := rfl
@[simp] theorem raise_cnt (e : ErrorResult) (s : State) : (raise e s).cnt = s.cnt := rfl
@[simp] theorem raise_acc (e : ErrorResult) (s : State) : (raise e s).acc = s.acc := rfl
@[simp] theorem raise_last (e : ErrorResult) (s : State) : (raise e s).last = s.last := rfl
@[simp] theorem raise_hok (e : ErrorResult) (s : State) : (raise e s).hok = s.hok := rfl
@[simp] theorem raise_fbuf (e : ErrorResult) (s : State) : (raise e s).fbuf = s.fbuf := rfl
@[simp] theorem raise_op (e : ErrorResult) (s : State) : (raise e s).op = s.op := rfl
@[simp] theorem raise_resp (e : ErrorResult) (s : State) : (raise e s).resp = s.resp := rfl
@[simp] theorem raise_frame (e : ErrorResult) (s : State) : (raise e s).frame = s.frame := rfl
@[simp] theorem raise_resPort (e : ErrorResult) (s : State) : (raise e s).resPort = some (errorResult e) := rfl
@[simp] theorem raise_held (e : ErrorResult) (s : State) : (raise e s).held = s.held := rfl
@[simp] theorem raise_inbox (e : ErrorResult) (s : State) : (raise e s).inbox = s.inbox := rfl
@[simp] theorem raise_outbox (e : ErrorResult) (s : State) :
    (raise e s).outbox = s.outbox ++ [.res (errorResult e)] := rfl
@[simp] theorem raise_draws (e : ErrorResult) (s : State) : (raise e s).draws = s.draws := rfl

@[simp] theorem present_phase (p : Operands) (s : State) : (present p s).phase = s.phase := rfl
@[simp] theorem present_cw (p : Operands) (s : State) : (present p s).cw = s.cw := rfl
@[simp] theorem present_opl (p : Operands) (s : State) : (present p s).opl = s.opl := rfl
@[simp] theorem present_idx (p : Operands) (s : State) : (present p s).idx = s.idx := rfl
@[simp] theorem present_cnt (p : Operands) (s : State) : (present p s).cnt = s.cnt := rfl
@[simp] theorem present_acc (p : Operands) (s : State) : (present p s).acc = s.acc := rfl
@[simp] theorem present_last (p : Operands) (s : State) : (present p s).last = s.last := rfl
@[simp] theorem present_hok (p : Operands) (s : State) : (present p s).hok = s.hok := rfl
@[simp] theorem present_fbuf (p : Operands) (s : State) : (present p s).fbuf = s.fbuf := rfl
@[simp] theorem present_op (p : Operands) (s : State) : (present p s).op = p := rfl
@[simp] theorem present_resp (p : Operands) (s : State) : (present p s).resp = s.resp := rfl
@[simp] theorem present_frame (p : Operands) (s : State) : (present p s).frame = s.frame := rfl
@[simp] theorem present_resPort (p : Operands) (s : State) : (present p s).resPort = s.resPort := rfl
@[simp] theorem present_held (p : Operands) (s : State) : (present p s).held = s.held := rfl
@[simp] theorem present_inbox (p : Operands) (s : State) : (present p s).inbox = s.inbox := rfl
@[simp] theorem present_outbox (p : Operands) (s : State) : (present p s).outbox = s.outbox := rfl
@[simp] theorem present_draws (p : Operands) (s : State) : (present p s).draws = s.draws := rfl

@[simp] theorem presentResponse_phase (r : List Byte) (s : State) : (presentResponse r s).phase = s.phase := rfl
@[simp] theorem presentResponse_cw (r : List Byte) (s : State) : (presentResponse r s).cw = s.cw := rfl
@[simp] theorem presentResponse_opl (r : List Byte) (s : State) : (presentResponse r s).opl = s.opl := rfl
@[simp] theorem presentResponse_idx (r : List Byte) (s : State) : (presentResponse r s).idx = s.idx := rfl
@[simp] theorem presentResponse_cnt (r : List Byte) (s : State) : (presentResponse r s).cnt = s.cnt := rfl
@[simp] theorem presentResponse_acc (r : List Byte) (s : State) : (presentResponse r s).acc = s.acc := rfl
@[simp] theorem presentResponse_last (r : List Byte) (s : State) : (presentResponse r s).last = s.last := rfl
@[simp] theorem presentResponse_hok (r : List Byte) (s : State) : (presentResponse r s).hok = s.hok := rfl
@[simp] theorem presentResponse_fbuf (r : List Byte) (s : State) : (presentResponse r s).fbuf = s.fbuf := rfl
@[simp] theorem presentResponse_op (r : List Byte) (s : State) : (presentResponse r s).op = s.op := rfl
@[simp] theorem presentResponse_resp (r : List Byte) (s : State) : (presentResponse r s).resp = r := rfl
@[simp] theorem presentResponse_frame (r : List Byte) (s : State) : (presentResponse r s).frame = s.frame := rfl
@[simp] theorem presentResponse_resPort (r : List Byte) (s : State) : (presentResponse r s).resPort = s.resPort := rfl
@[simp] theorem presentResponse_held (r : List Byte) (s : State) : (presentResponse r s).held = s.held := rfl
@[simp] theorem presentResponse_inbox (r : List Byte) (s : State) : (presentResponse r s).inbox = s.inbox := rfl
@[simp] theorem presentResponse_outbox (r : List Byte) (s : State) : (presentResponse r s).outbox = s.outbox := rfl
@[simp] theorem presentResponse_draws (r : List Byte) (s : State) : (presentResponse r s).draws = s.draws := rfl

@[simp] theorem hold_phase (c : Command) (s : State) : (hold c s).phase = s.phase := rfl
@[simp] theorem hold_cw (c : Command) (s : State) : (hold c s).cw = s.cw := rfl
@[simp] theorem hold_opl (c : Command) (s : State) : (hold c s).opl = s.opl := rfl
@[simp] theorem hold_idx (c : Command) (s : State) : (hold c s).idx = s.idx := rfl
@[simp] theorem hold_cnt (c : Command) (s : State) : (hold c s).cnt = s.cnt := rfl
@[simp] theorem hold_acc (c : Command) (s : State) : (hold c s).acc = s.acc := rfl
@[simp] theorem hold_last (c : Command) (s : State) : (hold c s).last = s.last := rfl
@[simp] theorem hold_hok (c : Command) (s : State) : (hold c s).hok = s.hok := rfl
@[simp] theorem hold_fbuf (c : Command) (s : State) : (hold c s).fbuf = s.fbuf := rfl
@[simp] theorem hold_op (c : Command) (s : State) : (hold c s).op = s.op := rfl
@[simp] theorem hold_resp (c : Command) (s : State) : (hold c s).resp = s.resp := rfl
@[simp] theorem hold_frame (c : Command) (s : State) : (hold c s).frame = s.frame := rfl
@[simp] theorem hold_resPort (c : Command) (s : State) : (hold c s).resPort = s.resPort := rfl
@[simp] theorem hold_held (c : Command) (s : State) : (hold c s).held = s.held ++ [c] := rfl
@[simp] theorem hold_inbox (c : Command) (s : State) : (hold c s).inbox = s.inbox := rfl
@[simp] theorem hold_outbox (c : Command) (s : State) : (hold c s).outbox = s.outbox := rfl
@[simp] theorem hold_draws (c : Command) (s : State) : (hold c s).draws = s.draws := rfl

@[simp] theorem startEmit_phase (w : CommandWord) (p : Operands) (s : State) : (startEmit w p s).phase = .emit := rfl
@[simp] theorem startEmit_cw (w : CommandWord) (p : Operands) (s : State) : (startEmit w p s).cw = w := rfl
@[simp] theorem startEmit_opl (w : CommandWord) (p : Operands) (s : State) : (startEmit w p s).opl = p := rfl
@[simp] theorem startEmit_idx (w : CommandWord) (p : Operands) (s : State) : (startEmit w p s).idx = 0 := rfl
@[simp] theorem startEmit_cnt (w : CommandWord) (p : Operands) (s : State) : (startEmit w p s).cnt = s.cnt := rfl
@[simp] theorem startEmit_acc (w : CommandWord) (p : Operands) (s : State) : (startEmit w p s).acc = 0 := rfl
@[simp] theorem startEmit_last (w : CommandWord) (p : Operands) (s : State) : (startEmit w p s).last = s.last := rfl
@[simp] theorem startEmit_hok (w : CommandWord) (p : Operands) (s : State) : (startEmit w p s).hok = s.hok := rfl
@[simp] theorem startEmit_fbuf (w : CommandWord) (p : Operands) (s : State) : (startEmit w p s).fbuf = s.fbuf := rfl
@[simp] theorem startEmit_op (w : CommandWord) (p : Operands) (s : State) : (startEmit w p s).op = s.op := rfl
@[simp] theorem startEmit_resp (w : CommandWord) (p : Operands) (s : State) : (startEmit w p s).resp = s.resp := rfl
@[simp] theorem startEmit_frame (w : CommandWord) (p : Operands) (s : State) : (startEmit w p s).frame = [] := rfl
@[simp] theorem startEmit_resPort (w : CommandWord) (p : Operands) (s : State) : (startEmit w p s).resPort = none := rfl
@[simp] theorem startEmit_held (w : CommandWord) (p : Operands) (s : State) : (startEmit w p s).held = s.held := rfl
@[simp] theorem startEmit_inbox (w : CommandWord) (p : Operands) (s : State) : (startEmit w p s).inbox = s.inbox := rfl
@[simp] theorem startEmit_outbox (w : CommandWord) (p : Operands) (s : State) :
    (startEmit w p s).outbox = s.outbox := rfl
@[simp] theorem startEmit_draws (w : CommandWord) (p : Operands) (s : State) : (startEmit w p s).draws = s.draws := rfl

@[simp] theorem startRecv_phase (w : CommandWord) (p : Operands) (s : State) : (startRecv w p s).phase = .recv := rfl
@[simp] theorem startRecv_cw (w : CommandWord) (p : Operands) (s : State) : (startRecv w p s).cw = w := rfl
@[simp] theorem startRecv_opl (w : CommandWord) (p : Operands) (s : State) : (startRecv w p s).opl = p := rfl
@[simp] theorem startRecv_idx (w : CommandWord) (p : Operands) (s : State) : (startRecv w p s).idx = s.idx := rfl
@[simp] theorem startRecv_cnt (w : CommandWord) (p : Operands) (s : State) : (startRecv w p s).cnt = 0 := rfl
@[simp] theorem startRecv_acc (w : CommandWord) (p : Operands) (s : State) : (startRecv w p s).acc = 0 := rfl
@[simp] theorem startRecv_last (w : CommandWord) (p : Operands) (s : State) : (startRecv w p s).last = 0 := rfl
@[simp] theorem startRecv_hok (w : CommandWord) (p : Operands) (s : State) : (startRecv w p s).hok = false := rfl
@[simp] theorem startRecv_fbuf (w : CommandWord) (p : Operands) (s : State) : (startRecv w p s).fbuf = s.fbuf := rfl
@[simp] theorem startRecv_op (w : CommandWord) (p : Operands) (s : State) : (startRecv w p s).op = s.op := rfl
@[simp] theorem startRecv_resp (w : CommandWord) (p : Operands) (s : State) : (startRecv w p s).resp = s.resp := rfl
@[simp] theorem startRecv_frame (w : CommandWord) (p : Operands) (s : State) : (startRecv w p s).frame = s.frame := rfl
@[simp] theorem startRecv_resPort (w : CommandWord) (p : Operands) (s : State) : (startRecv w p s).resPort = none := rfl
@[simp] theorem startRecv_held (w : CommandWord) (p : Operands) (s : State) : (startRecv w p s).held = s.held := rfl
@[simp] theorem startRecv_inbox (w : CommandWord) (p : Operands) (s : State) : (startRecv w p s).inbox = s.inbox := rfl
@[simp] theorem startRecv_outbox (w : CommandWord) (p : Operands) (s : State) :
    (startRecv w p s).outbox = s.outbox := rfl
@[simp] theorem startRecv_draws (w : CommandWord) (p : Operands) (s : State) : (startRecv w p s).draws = s.draws := rfl

@[simp] theorem resetStep_phase (s : State) : (resetStep s).phase = .idle := rfl
@[simp] theorem resetStep_cw (s : State) : (resetStep s).cw = 0 := rfl
@[simp] theorem resetStep_opl (s : State) : (resetStep s).opl = .zero := rfl
@[simp] theorem resetStep_idx (s : State) : (resetStep s).idx = 0 := rfl
@[simp] theorem resetStep_cnt (s : State) : (resetStep s).cnt = 0 := rfl
@[simp] theorem resetStep_acc (s : State) : (resetStep s).acc = 0 := rfl
@[simp] theorem resetStep_last (s : State) : (resetStep s).last = 0 := rfl
@[simp] theorem resetStep_hok (s : State) : (resetStep s).hok = false := rfl
@[simp] theorem resetStep_fbuf (s : State) :
    (resetStep s).fbuf = Vector.ofFn (fun k => Config.freeByte (s.draws + k.val)) := rfl
@[simp] theorem resetStep_op (s : State) : (resetStep s).op = s.op := rfl
@[simp] theorem resetStep_resp (s : State) : (resetStep s).resp = s.resp := rfl
@[simp] theorem resetStep_frame (s : State) : (resetStep s).frame = s.frame := rfl
@[simp] theorem resetStep_resPort (s : State) : (resetStep s).resPort = none := rfl
@[simp] theorem resetStep_held (s : State) : (resetStep s).held = s.held := rfl
@[simp] theorem resetStep_inbox (s : State) : (resetStep s).inbox = s.inbox := rfl
@[simp] theorem resetStep_outbox (s : State) : (resetStep s).outbox = s.outbox := rfl
@[simp] theorem resetStep_draws (s : State) : (resetStep s).draws = s.draws + 14 := rfl

@[simp] theorem answered_phase (s : State) (m : Memory) (r : Result) : (answered s m r).phase = s.phase := rfl
@[simp] theorem answered_cw (s : State) (m : Memory) (r : Result) : (answered s m r).cw = s.cw := rfl
@[simp] theorem answered_opl (s : State) (m : Memory) (r : Result) : (answered s m r).opl = s.opl := rfl
@[simp] theorem answered_idx (s : State) (m : Memory) (r : Result) : (answered s m r).idx = s.idx := rfl
@[simp] theorem answered_cnt (s : State) (m : Memory) (r : Result) : (answered s m r).cnt = s.cnt := rfl
@[simp] theorem answered_acc (s : State) (m : Memory) (r : Result) : (answered s m r).acc = s.acc := rfl
@[simp] theorem answered_last (s : State) (m : Memory) (r : Result) : (answered s m r).last = s.last := rfl
@[simp] theorem answered_hok (s : State) (m : Memory) (r : Result) : (answered s m r).hok = s.hok := rfl
@[simp] theorem answered_fbuf (s : State) (m : Memory) (r : Result) : (answered s m r).fbuf = s.fbuf := rfl
@[simp] theorem answered_op (s : State) (m : Memory) (r : Result) : (answered s m r).op = s.op := rfl
@[simp] theorem answered_resp (s : State) (m : Memory) (r : Result) : (answered s m r).resp = s.resp := rfl
@[simp] theorem answered_frame (s : State) (m : Memory) (r : Result) : (answered s m r).frame = m := rfl
@[simp] theorem answered_resPort (s : State) (m : Memory) (r : Result) : (answered s m r).resPort = some r := rfl
@[simp] theorem answered_held (s : State) (m : Memory) (r : Result) : (answered s m r).held = s.held := rfl
@[simp] theorem answered_inbox (s : State) (m : Memory) (r : Result) : (answered s m r).inbox = s.inbox := rfl
@[simp] theorem answered_outbox (s : State) (m : Memory) (r : Result) :
    (answered s m r).outbox = s.outbox ++ [.res r] := rfl
@[simp] theorem answered_draws (s : State) (m : Memory) (r : Result) : (answered s m r).draws = s.draws := rfl

end Sys2Proof.Machine
end

