-- ==== Sys2Proof/Laws/Memory.lean ====
section
/-! SUPPORT. FRAME: every write keeps the canonical form, and writing bytes from index 0 on leaves exactly those bytes. -/

namespace Sys2Proof.Machine

/-- The canonical form as a proposition. -/
theorem Memory.wf_iff (m : Memory) :
    Memory.wf m = true ↔ m.Pairwise (fun a b => a.1 < b.1) ∧ ∀ c ∈ m, c.1 < maxFrame := by
  simp [Memory.wf]

@[simp] theorem Memory.wf_nil : Memory.wf [] = true := rfl

/-- The cells of a memory after a write: the new one, or one that stood there before. -/
theorem mem_putCell {m : Memory} {i : Nat} {b : Byte} {c : Host.Cell} (h : c ∈ putCell m i b) : c = (i, b) ∨ c ∈ m := by
  induction m with
  | nil => simpa [putCell] using h
  | cons d m ih =>
    obtain ⟨j, x⟩ := d
    simp only [putCell] at h
    split at h
    · simpa using h
    · split at h
      · rcases List.mem_cons.1 h with h | h
        · exact .inl h
        · exact .inr (List.mem_cons_of_mem _ h)
      · rcases List.mem_cons.1 h with h | h
        · exact .inr (h ▸ List.mem_cons_self ..)
        · exact (ih h).imp id (List.mem_cons_of_mem _)

theorem putCell_pairwise {m : Memory} {i : Nat} {b : Byte} (h : m.Pairwise (fun a b => a.1 < b.1)) :
    (putCell m i b).Pairwise (fun a b => a.1 < b.1) := by
  induction m with
  | nil => simp [putCell]
  | cons d m ih =>
    obtain ⟨j, x⟩ := d
    obtain ⟨hd, ht⟩ := List.pairwise_cons.1 h
    simp only [putCell]
    split
    · rename_i hij
      refine List.pairwise_cons.2 ⟨fun c hc => ?_, h⟩
      rcases List.mem_cons.1 hc with hc | hc
      · subst hc; exact hij
      · exact lt_trans hij (hd c hc)
    · split
      · rename_i hij
        subst hij
        exact List.pairwise_cons.2 ⟨hd, ht⟩
      · refine List.pairwise_cons.2 ⟨fun c hc => ?_, ih ht⟩
        rcases mem_putCell hc with hc | hc
        · subst hc; show j < i; omega
        · exact hd c hc

/-- Every write keeps the canonical form. -/
theorem frameWrite_keeps_wf {m m' : Memory} {i : Nat} {b : Byte} (h : Memory.wf m = true) (hw : frameWrite m i b = some m') :
    Memory.wf m' = true := by
  unfold frameWrite at hw
  split at hw
  · rename_i hi
    obtain rfl : putCell m i b = m' := by simpa using hw
    obtain ⟨hp, ha⟩ := (Memory.wf_iff m).1 h
    refine (Memory.wf_iff _).2 ⟨putCell_pairwise hp, fun c hc => ?_⟩
    rcases mem_putCell hc with hc | hc
    · subst hc; exact hi
    · exact ha c hc
  · cases hw

/-- So does a whole frame's worth of them. -/
theorem frameWriteFrom_keeps_wf {bytes : List Byte} {m m' : Memory} {i : Nat} (h : Memory.wf m = true)
    (hw : frameWriteFrom m i bytes = some m') : Memory.wf m' = true := by
  induction bytes generalizing m i with
  | nil => obtain rfl : m = m' := by simpa [frameWriteFrom] using hw
           exact h
  | cons b bs ih =>
    simp only [frameWriteFrom] at hw
    cases hm : frameWrite m i b with
    | none => simp [hm] at hw
    | some m1 => exact ih (frameWrite_keeps_wf h hm) (by simpa [hm] using hw)

theorem reset_frame_wf : Memory.wf State.reset.frame = true := rfl

/-- Every index of `cellsFrom i bytes` is at least `i` and below `i + bytes.length`. -/
theorem mem_cellsFrom {bytes : List Byte} {i : Nat} {c : Host.Cell} (h : c ∈ cellsFrom i bytes) :
    i ≤ c.1 ∧ c.1 < i + bytes.length := by
  induction bytes generalizing i with
  | nil => cases h
  | cons b bs ih =>
    rcases List.mem_cons.1 h with h | h
    · subst h; simp
    · have := ih h; simp; omega

/-- Writing at the index after the last cell puts the new cell behind them. -/
theorem putCell_after {m : Memory} {i : Nat} {b : Byte} (h : ∀ c ∈ m, c.1 < i) : putCell m i b = m ++ [(i, b)] := by
  induction m with
  | nil => rfl
  | cons d m ih =>
    obtain ⟨j, x⟩ := d
    have hj : j < i := h (j, x) (List.mem_cons_self ..)
    simp [putCell, show ¬ i < j by omega, show ¬ i = j by omega, ih fun c hc => h c (List.mem_cons_of_mem _ hc)]

theorem cellsFrom_append (bytes more : List Byte) (i : Nat) :
    cellsFrom i (bytes ++ more) = cellsFrom i bytes ++ cellsFrom (i + bytes.length) more := by
  induction bytes generalizing i with
  | nil => simp [cellsFrom]
  | cons b bs ih => simp [cellsFrom, ih, Nat.add_assoc, Nat.add_comm 1]

/-- Writing the next byte of a frame. -/
theorem frameWrite_cells {bytes : List Byte} {b : Byte} (h : bytes.length < maxFrame) :
    frameWrite (cellsFrom 0 bytes) bytes.length b = some (cellsFrom 0 (bytes ++ [b])) := by
  rw [frameWrite, if_pos h, putCell_after, cellsFrom_append]
  · simp [cellsFrom]
  · intro c hc; simpa using (mem_cellsFrom hc).2

/-- Writing the rest of a frame behind what has been written. -/
theorem frameWriteFrom_cells {more bytes : List Byte} (h : (bytes ++ more).length ≤ maxFrame) :
    frameWriteFrom (cellsFrom 0 bytes) bytes.length more = some (cellsFrom 0 (bytes ++ more)) := by
  induction more generalizing bytes with
  | nil => simp [frameWriteFrom]
  | cons b bs ih =>
    simp only [List.length_append, List.length_cons] at h
    rw [frameWriteFrom, frameWrite_cells (by omega)]
    have := ih (bytes := bytes ++ [b]) (by simp; omega)
    simpa using this

@[simp] theorem frameBytes_cellsFrom (bytes : List Byte) (i : Nat) : frameBytes (cellsFrom i bytes) = bytes := by
  induction bytes generalizing i with
  | nil => rfl
  | cons b bs ih => simpa [frameBytes, cellsFrom] using ih (i + 1)

/-- The cells of a frame that fits are in canonical form. -/
theorem cellsFrom_wf {bytes : List Byte} (h : bytes.length ≤ maxFrame) : Memory.wf (cellsFrom 0 bytes) = true :=
  frameWriteFrom_keeps_wf Memory.wf_nil (frameWriteFrom_cells (bytes := []) (more := bytes) (by simpa using h))

/-- FRAME reads byte k of what was written from `i` on at index `i + k`. -/
theorem frameRead_cellsFrom (bytes : List Byte) (i k : Nat) : frameRead (cellsFrom i bytes) (i + k) = bytes[k]? := by
  induction bytes generalizing i k with
  | nil => rfl
  | cons b bs ih =>
    cases k with
    | zero => simp [cellsFrom, frameRead]
    | succ k =>
      have := ih (i + 1) k
      simp only [cellsFrom, frameRead, if_neg (show ¬ i + (k + 1) = i by omega)]
      simpa [Nat.add_assoc, Nat.add_comm 1 k] using this

end Sys2Proof.Machine
end

