-- ==== Sys2Proof/Laws/Ops.lean ====
section
/-! SUPPORT. What each shared operation can do, said once: the checksum generator, the validator, the constructors, the level-T
response operations. -/

namespace Sys2Proof.Machine

theorem csum_toNat (s : List Byte) : (csum s).toNat = (s.map BitVec.toNat).sum % 256 := by
  simp [csum]

@[simp] theorem csum_nil : csum [] = 0 := rfl

/-- One more byte adds itself (R84's recurrence). -/
theorem csum_snoc (s : List Byte) (b : Byte) : csum (s ++ [b]) = csum s + b := by
  apply BitVec.eq_of_toNat_eq
  simp [csum]

theorem csum_cons (b : Byte) (s : List Byte) : csum (b :: s) = b + csum s := by
  apply BitVec.eq_of_toNat_eq
  simp [csum]

/-- The length of a framed message (R85). -/
theorem frameOf_length (v : Variant) (s : List Byte) : (frameOf v s).length = s.length + if ck v then 1 else 0 := by
  cases v <;> simp [frameOf, ck]

/-- A frame constructor whose frame fits answers: FRAME holds exactly the frame, the result is the frame. -/
theorem construct_eq {v : Variant} {base : List Byte} (s : State) (h : (frameOf v base).length ≤ maxFrame) :
    construct v base s = .next (answered s (cellsFrom 0 (frameOf v base)) (.frame (frameOf v base))) := by
  have hw := frameWriteFrom_cells (bytes := []) (more := frameOf v base) (by simpa using h)
  simp only [cellsFrom, List.length_nil, List.nil_append] at hw
  simp only [construct, hw]
  rfl

theorem rlen_pos (v : Variant) : hidx v < rlen v ∧ 0 < rlen v := by cases v <;> decide

/-- `VALIDATE` on a response of the wrong length. -/
theorem validate_len {v : Variant} {resp : List Byte} (h : resp.length ≠ rlen v) : validate v resp = some rejectedLen := by
  simp [validate, h]

/-- `VALIDATE` on a response of the right length with a wrong header byte. -/
theorem validate_head {v : Variant} {resp : List Byte} (h : resp.length = rlen v) (hh : resp[hidx v]? ≠ some (hval v)) :
    validate v resp = some rejectedHead := by
  have hlt : hidx v < resp.length := h ▸ (rlen_pos v).1
  have hget : resp[hidx v]? = some resp[hidx v] := List.getElem?_eq_getElem hlt
  simp only [hget, ne_eq, Option.some.injEq] at hh
  simp [validate, h, respRead, hget, hh]

/-- `VALIDATE` on a response of the right length with the right header byte: the checksum decides, if the variant has one. -/
theorem validate_body {v : Variant} {resp : List Byte} {a : Byte} (h : resp.length = rlen v)
    (hh : resp[hidx v]? = some (hval v)) (ha : resp[rlen v - 1]? = some a) :
    validate v resp =
      some (if ck v = true ∧ csum (resp.take (rlen v - 1)) ≠ a then rejectedCsum (csum (resp.take (rlen v - 1))) a
        else accepted) := by
  cases hc : ck v <;> simp [validate, h, respRead, hh, ha, hc]
  split <;> simp_all

/-- `VALIDATE` always answers: it never reads outside the response (R34, R82). -/
theorem validate_isSome (v : Variant) (resp : List Byte) : ∃ w, validate v resp = some w := by
  by_cases h : resp.length = rlen v
  · by_cases hh : resp[hidx v]? = some (hval v)
    · have hlt : rlen v - 1 < resp.length := by have := (rlen_pos v).2; omega
      exact ⟨_, validate_body h hh (List.getElem?_eq_getElem hlt)⟩
    · exact ⟨_, validate_head h hh⟩
  · exact ⟨_, validate_len h⟩

/-- What a verdict can be (R14): accepted on a response of the right length, or rejected with a cause. -/
theorem validate_cases {v : Variant} {resp : List Byte} {w : Verdict} (h : validate v resp = some w) :
    (w = accepted ∧ resp.length = rlen v) ∨ w = rejectedLen ∨ w = rejectedHead ∨ ∃ e a, w = rejectedCsum e a ∧ e ≠ a := by
  by_cases hl : resp.length = rlen v
  · by_cases hh : resp[hidx v]? = some (hval v)
    · have hlt : rlen v - 1 < resp.length := by have := (rlen_pos v).2; omega
      rw [validate_body hl hh (List.getElem?_eq_getElem hlt)] at h
      split at h
      · rename_i hc
        exact .inr (.inr (.inr ⟨_, _, (Option.some.inj h).symm, hc.2⟩))
      · exact .inl ⟨(Option.some.inj h).symm, hl⟩
    · rw [validate_head hl hh] at h
      exact .inr (.inr (.inl (Option.some.inj h).symm))
  · rw [validate_len hl] at h
    exact .inr (.inl (Option.some.inj h).symm)

/-- A record is made where every byte of the layout can be read, and its lanes are those bytes. -/
theorem recordOf_eq {v : Variant} {read : Nat → Option Byte} {lanes : List Byte} (hl : lanes.length = rlen v)
    (hr : ∀ k, k < rlen v → read k = lanes[k]?) : ∃ record, recordOf v read = some record ∧ namedLanes record = lanes ∧
      namedLen record = rlen v ∧ (v = .orig ↔ ∃ r, record = .orig r) := by
  cases v <;> simp only [rlen] at hl hr
  · match lanes, hl with
    | [_, _, _, _, _, _, _, _, _, _, _], _ =>
      simp [recordOf, hr, namedLanes, namedLen, rlen]
  all_goals
    match lanes, hl with
    | [_, _, _, _, _, _, _, _, _, _, _, _, _, _], _ =>
      simp [recordOf, hr, namedLanes, namedLen, rlen]

/-- `VALID` of level T delivers the verdict. -/
theorem checkResponse_eq {v : Variant} {s : State} {w : Verdict} (h : validate v s.resp = some w) :
    checkResponse v s = .next (answered s s.frame (.valid w)) := by
  simp only [checkResponse, h]; rfl

/-- `PARSE` of level T on a rejected response. -/
theorem parseResponse_error {v : Variant} {s : State} {w : Verdict} (h : validate v s.resp = some w) (hw : w.ok = false) :
    parseResponse v s = .next (answered s s.frame (.parseContract w.rej)) := by
  simp only [parseResponse, h, hw]; rfl

/-- `PARSE` of level T on an accepted response. -/
theorem parseResponse_ok {v : Variant} {s : State} (h : validate v s.resp = some accepted) :
    ∃ record, parseResponse v s = .next (answered s s.frame (.named record)) ∧ namedLanes record = s.resp ∧
      namedLen record = rlen v ∧ (v = .orig ↔ ∃ r, record = .orig r) := by
  have hl : s.resp.length = rlen v := by
    rcases validate_cases h with ⟨-, hl⟩ | h | h | ⟨e, a, h, -⟩
    · exact hl
    all_goals cases h
  obtain ⟨record, hr, hrest⟩ := recordOf_eq (v := v) (read := respRead s.resp) hl fun k _ => rfl
  refine ⟨record, ?_, hrest⟩
  simp only [parseResponse, h, accepted, hr]; rfl

end Sys2Proof.Machine
end

