-- ==== Sys2Proof/Laws/Exec.lean ====
section
/-! SUPPORT. What exec answers, by the kind of operation: one lemma for the constructors, one for VALID, one for PARSE, one for
the constants. The base bytes of level T and of level S (spec/44_serial_datapath.md R134) are brought together here. -/

namespace Sys2Proof.Machine

/-- A base list has at most eight bytes, so that every frame fits (R5, R55). -/
theorem baseList_length {cw : CommandWord} {op : Operands} {base : List Byte} (h : baseList cw op = some base) :
    0 < base.length ∧ base.length ≤ 8 := by
  unfold baseList at h
  split at h
  all_goals first
    | (obtain rfl := Option.some.inj h; simp)
    | cases h

theorem frameOf_fits {v : Variant} {cw : CommandWord} {op : Operands} {base : List Byte} (h : baseList cw op = some base) :
    (frameOf v base).length ≤ maxFrame := by
  have := (baseList_length h).2
  rw [frameOf_length]
  simp only [maxFrame]
  split <;> omega

theorem decode_encode (i : Instr) : decode (encode i) = .ok i := by cases i <;> rfl

theorem encode_of_decode {cw : CommandWord} {i : Instr} (h : decode cw = .ok i) : encode i = cw := by
  have key : ∀ cw : CommandWord, (match decode cw with | .ok i => encode i == cw | .error _ => true) = true := by decide
  simpa [h] using key cw

/-- The two fields of a word that decodes (R50). -/
theorem fields_of_decode {cw : CommandWord} {i : Instr} (h : decode cw = .ok i) :
    variantOfVsel (vselOf cw) = some i.variant ∧ operationOfOpc (opcOf cw) = some i.operation := by
  obtain rfl := encode_of_decode h
  cases i <;> exact ⟨rfl, rfl⟩

theorem decode_of_fields {cw : CommandWord} {v : Variant} {o : Operation} (hv : variantOfVsel (vselOf cw) = some v)
    (ho : operationOfOpc (opcOf cw) = some o) : decode cw = .ok (Instr.ofParts v o) := by
  simp [decode, hv, ho]

theorem ofParts_self (i : Instr) : Instr.ofParts i.variant i.operation = i := by cases i <;> rfl

@[simp] theorem ofParts_variant (v : Variant) (o : Operation) : (Instr.ofParts v o).variant = v := by
  cases v <;> cases o <;> rfl

@[simp] theorem ofParts_operation (v : Variant) (o : Operation) : (Instr.ofParts v o).operation = o := by
  cases v <;> cases o <;> rfl

/-- A word that does not decode is reserved (R54), and only such a word. -/
theorem decode_error_iff (cw : CommandWord) : decode cw = .error (.reserved cw) ↔ cw.reserved = true := by
  revert cw; decide

theorem decode_cases (cw : CommandWord) : decode cw = .error (.reserved cw) ∨ ∃ i, decode cw = .ok i := by
  unfold decode; split <;> simp

/-- A constructor's word has base bytes (R134), and only a constructor's. -/
theorem baseList_isSome_iff (i : Instr) (op : Operands) :
    (∃ base, baseList (encode i) op = some base) ↔ i.operation = .query ∨ i.operation = .stchg ∨ i.operation = .levels := by
  cases i <;> simp [baseList, encode, Instr.variant, Instr.operation, vselOfVariant, opcOfOperation]

/-- Level T builds the frame of the base bytes that level S has for the same word (R134: they "must stay equal"). -/
theorem exec_constructor {i : Instr} {s : State} {base : List Byte} (h : baseList (encode i) s.op = some base) :
    exec i s = .next (answered s (cellsFrom 0 (frameOf i.variant base)) (.frame (frameOf i.variant base))) := by
  have heq : exec i s = construct i.variant base s := by cases i <;> cases h <;> rfl
  rw [heq, construct_eq s (frameOf_fits h)]

theorem exec_valid {v : Variant} {s : State} {w : Verdict} (h : validate v s.resp = some w) :
    exec (Instr.ofParts v .valid) s = .next (answered s s.frame (.valid w)) := by
  cases v <;> exact checkResponse_eq h

theorem exec_parse_error {v : Variant} {s : State} {w : Verdict} (h : validate v s.resp = some w) (hw : w.ok = false) :
    exec (Instr.ofParts v .parse) s = .next (answered s s.frame (.parseContract w.rej)) := by
  cases v <;> exact parseResponse_error h hw

theorem exec_parse_ok {v : Variant} {s : State} (h : validate v s.resp = some accepted) :
    ∃ record, exec (Instr.ofParts v .parse) s = .next (answered s s.frame (.named record)) ∧ namedLanes record = s.resp ∧
      namedLen record = rlen v ∧ (v = .orig ↔ ∃ r, record = .orig r) := by
  cases v <;> exact parseResponse_ok h

theorem exec_rlen (v : Variant) (s : State) :
    exec (Instr.ofParts v .rlen) s = .next (answered s s.frame (.const (.length (BitVec.ofNat 8 (rlen v))))) := by
  cases v <;> rfl

theorem exec_name (v : Variant) (s : State) :
    exec (Instr.ofParts v .name) s = .next (answered s s.frame (.const (.tag (tag v)))) := by
  cases v <;> rfl

end Sys2Proof.Machine
end

