-- ==== Sys2Proof/Laws/PerInstr.lean ====
section
/-! SUPPORT. The per-instruction family of LAWS.json, one lemma per constructor of Instr. -/

namespace Sys2Proof.Laws.EncodeRoundTrip

/-- The instruction's word decodes to it, and the word is not reserved (spec/30_encoding.md R50, R54). -/
def Statement (i : Instr) : Prop := decode (encode i) = .ok i ∧ i.wellFormed = true

theorem queryO : Statement .queryO := ⟨rfl, rfl⟩
theorem stchgO : Statement .stchgO := ⟨rfl, rfl⟩
theorem levelsO : Statement .levelsO := ⟨rfl, rfl⟩
theorem validO : Statement .validO := ⟨rfl, rfl⟩
theorem parseO : Statement .parseO := ⟨rfl, rfl⟩
theorem rlenO : Statement .rlenO := ⟨rfl, rfl⟩
theorem nameO : Statement .nameO := ⟨rfl, rfl⟩
theorem query8 : Statement .query8 := ⟨rfl, rfl⟩
theorem stchg8 : Statement .stchg8 := ⟨rfl, rfl⟩
theorem levels8 : Statement .levels8 := ⟨rfl, rfl⟩
theorem valid8 : Statement .valid8 := ⟨rfl, rfl⟩
theorem parse8 : Statement .parse8 := ⟨rfl, rfl⟩
theorem rlen8 : Statement .rlen8 := ⟨rfl, rfl⟩
theorem name8 : Statement .name8 := ⟨rfl, rfl⟩
theorem query9 : Statement .query9 := ⟨rfl, rfl⟩
theorem stchg9 : Statement .stchg9 := ⟨rfl, rfl⟩
theorem levels9 : Statement .levels9 := ⟨rfl, rfl⟩
theorem valid9 : Statement .valid9 := ⟨rfl, rfl⟩
theorem parse9 : Statement .parse9 := ⟨rfl, rfl⟩
theorem rlen9 : Statement .rlen9 := ⟨rfl, rfl⟩
theorem name9 : Statement .name9 := ⟨rfl, rfl⟩

end Sys2Proof.Laws.EncodeRoundTrip
end

