-- ==== Sys2Proof/Laws/Serial.lean ====
section
/-! SUPPORT. What each labelled step of level S does on a state that is in step with its transaction, said once: `cmd`, `tx` before
and at the end of the frame, `rx`, `rx_end`. -/

namespace Sys2Proof.Machine

/-- `cmd` of a word without a meaning. -/
theorem cmdStep_reserved {cw : CommandWord} (op : Operands) (s : State) (h : decode cw = .error (.reserved cw)) :
    cmdStep cw op s = .next (answered s s.frame (.cmdReserved cw)) := by
  simp only [cmdStep, h]; rfl

/-- `cmd` of a constructor. -/
theorem cmdStep_constructor {cw : CommandWord} {i : Instr} (op : Operands) (s : State) (h : decode cw = .ok i)
    (ho : i.operation = .query ∨ i.operation = .stchg ∨ i.operation = .levels) :
    cmdStep cw op s = .next (startEmit cw op s) := by
  rcases ho with ho | ho | ho <;> simp only [cmdStep, h, ho]

/-- `cmd` of `VALID` or `PARSE`. -/
theorem cmdStep_response {cw : CommandWord} {i : Instr} (op : Operands) (s : State) (h : decode cw = .ok i)
    (ho : i.operation = .valid ∨ i.operation = .parse) : cmdStep cw op s = .next (startRecv cw op s) := by
  rcases ho with ho | ho <;> simp only [cmdStep, h, ho]

/-- A constructor's command starts the EMIT phase with nothing emitted. -/
theorem startEmit_emitted {cw : CommandWord} {i : Instr} {op : Operands} {base : List Byte} (s : State)
    (h : decode cw = .ok i) (hb : baseList cw op = some base) : Emitted i.variant base 0 (startEmit cw op s) := by
  refine ⟨(fields_of_decode h).1, hb, ?_, rfl, rfl, rfl⟩
  rw [frameOf_length]
  have := (baseList_length hb).1
  omega

/-- A response command starts the RECV phase with nothing received. -/
theorem startRecv_received {cw : CommandWord} {i : Instr} (op : Operands) (s : State) (h : decode cw = .ok i)
    (ho : i.operation = .valid ∨ i.operation = .parse) : Received i.variant [] (startRecv cw op s) := by
  refine ⟨(fields_of_decode h).1, ?_, rfl, rfl, rfl, by simp, by simp⟩
  rcases ho with ho | ho <;> simp [(fields_of_decode h).2, ho]

/-- The byte that `tx` emits next is the frame's, and `ACC` goes on summing the base bytes. -/
theorem Emitted.next_byte {v : Variant} {base : List Byte} {k : Nat} {s : State} (h : Emitted v base k s) :
    (frameOf v base)[k]? = some (if hk : k < base.length then base[k] else s.acc) := by
  obtain ⟨-, -, hlt, -, hacc, -⟩ := h
  rw [frameOf_length] at hlt
  cases hc : ck v <;> simp only [hc] at hlt
  · have hk : k < base.length := by simpa using hlt
    simp [frameOf, hc, hk]
  · by_cases hk : k < base.length
    · simp [frameOf, hc, hk, List.getElem?_append_left hk]
    · obtain rfl : k = base.length := by simp at hlt; omega
      simp [frameOf, hc, hacc]

/-- What `tx` does while bytes are still to come after this one. -/
theorem txStep_emitted {v : Variant} {base : List Byte} {k : Nat} {s : State} (h : Emitted v base k s)
    (hk : k + 1 < (frameOf v base).length) :
    ∃ b, (frameOf v base)[k]? = some b ∧ base[k]? = some b ∧
      txStep s = .next { s with acc := s.acc + b, frame := cellsFrom 0 (base.take (k + 1)), idx := s.idx + 1,
                                outbox := s.outbox ++ [.tx b false], resPort := none } := by
  have hn := h.next_byte
  obtain ⟨hv, hb, hlt, hidx, hacc, hfr⟩ := h
  have hlen := baseList_length hb
  have hkb : k < base.length := by
    rw [frameOf_length] at hk; split at hk <;> omega
  rw [dif_pos hkb] at hn
  have hget : base[k]? = some base[k] := List.getElem?_eq_getElem hkb
  have hlast : (!ck v && decide (k = base.length - 1)) = false := by
    rw [frameOf_length] at hk
    cases hc : ck v <;> simp [hc] at hk ⊢; omega
  have hw : frameWrite s.frame k base[k] = some (cellsFrom 0 (base.take (k + 1))) := by
    have := frameWrite_cells (bytes := base.take k) (b := base[k]) (by simp [maxFrame]; omega)
    rw [hfr]
    simpa [Nat.min_eq_left hkb.le, List.take_concat_get'] using this
  exact ⟨base[k], hn, hget, by simp [txStep, hv, hb, hidx, hget, hlast, emitByte, hw]⟩

/-- What `tx` does with the last byte of the frame. -/
theorem txStep_last {v : Variant} {base : List Byte} {k : Nat} {s : State} (h : Emitted v base k s)
    (hk : k + 1 = (frameOf v base).length) :
    ∃ b acc, (frameOf v base)[k]? = some b ∧ (k < base.length → acc = csum (base.take (k + 1))) ∧
      txStep s = .next { s with acc := acc, frame := cellsFrom 0 (frameOf v base), idx := s.idx + 1, phase := .idle,
                                outbox := s.outbox ++ [.tx b true] ++ [.res (.frame (frameOf v base))],
                                resPort := some (.frame (frameOf v base)) } := by
  have hn := h.next_byte
  obtain ⟨hv, hb, hlt, hidx, hacc, hfr⟩ := h
  have hlen := baseList_length hb
  rw [frameOf_length] at hk
  cases hc : ck v <;> simp only [hc] at hk
  · have hkb : k < base.length := by simp at hk; omega
    have hke : k + 1 = base.length := by simpa using hk
    rw [dif_pos hkb] at hn
    have hget : base[k]? = some base[k] := List.getElem?_eq_getElem hkb
    have hw : frameWrite s.frame k base[k] = some (cellsFrom 0 base) := by
      have := frameWrite_cells (bytes := base.take k) (b := base[k]) (by simp [maxFrame]; omega)
      rw [hfr]
      have htk : base.take (k + 1) = base := by rw [hke, List.take_length]
      simpa [Nat.min_eq_left hkb.le, List.take_concat_get', htk] using this
    have hf : frameOf v base = base := by simp [frameOf, hc]
    refine ⟨base[k], s.acc + base[k], hn, fun _ => ?_, ?_⟩
    · rw [hacc, ← csum_snoc, List.take_concat_get']
    · have hlast : (!ck v && decide (k = base.length - 1)) = true := by simp [hc]; omega
      simp [txStep, hv, hb, hidx, hget, hlast, emitByte, hw, hf, deliver]
  · obtain rfl : k = base.length := by simpa using hk
    simp only [lt_irrefl, dite_false] at hn
    have hw : frameWrite s.frame base.length s.acc = some (cellsFrom 0 (base ++ [s.acc])) := by
      rw [hfr, List.take_length]
      exact frameWrite_cells (by simp [maxFrame]; omega)
    have hf : frameOf v base = base ++ [s.acc] := by simp [frameOf, hc, hacc]
    refine ⟨s.acc, s.acc, hn, fun hlt => absurd hlt (lt_irrefl _), ?_⟩
    simp [txStep, hv, hb, hidx, emitByte, hw, hf, deliver]

/-- After a byte that is not the last, one more has been emitted (R140). -/
theorem Emitted.succ {v : Variant} {base : List Byte} {k : Nat} {s t : State} {b : Byte} (h : Emitted v base k s)
    (hk : k + 1 < (frameOf v base).length) (hb : base[k]? = some b) (hcw : t.cw = s.cw) (hopl : t.opl = s.opl)
    (hidx : t.idx = s.idx + 1) (hacc : t.acc = s.acc + b) (hfr : t.frame = cellsFrom 0 (base.take (k + 1))) :
    Emitted v base (k + 1) t := by
  obtain ⟨hv, hbl, hlt, hi, ha, -⟩ := h
  have hlen := baseList_length hbl
  obtain ⟨hkb, hbe⟩ := List.getElem?_eq_some_iff.1 hb
  refine ⟨hcw ▸ hv, by rw [hcw, hopl]; exact hbl, hk, ?_, ?_, hfr⟩
  · rw [hidx, BitVec.toNat_add, hi]
    simp; omega
  · rw [hacc, ha, ← csum_snoc, ← hbe, List.take_concat_get']

/-- After `rx(b)` the bytes received are `r ++ [b]` (R141). -/
theorem rxStep_received {v : Variant} {r : List Byte} {s : State} (b : Byte) (h : Received v r s) :
    ∃ t, rxStep b s = .next t ∧ Received v (r ++ [b]) t ∧
      t = { s with acc := t.acc, last := t.last, hok := t.hok, fbuf := t.fbuf, cnt := t.cnt, resPort := none } := by
  obtain ⟨hv, ho, hcnt, hlast, hacc, hhok, hbuf⟩ := h
  refine ⟨{ s with
      acc := if 0 < s.cnt.toNat then s.acc + s.last else s.acc
      last := b
      hok := if s.cnt.toNat = hidx v then b == hval v else s.hok
      fbuf := if s.cnt.toNat < 14 then s.fbuf.setIfInBounds s.cnt.toNat b else s.fbuf
      cnt := BitVec.ofNat 4 (min (s.cnt.toNat + 1) 15)
      resPort := none }, by simp only [rxStep, hv], ⟨hv, ho, ?_, ?_, ?_, ?_, ?_⟩, rfl⟩
  · simp only [hcnt, BitVec.toNat_ofNat, List.length_append, List.length_singleton]
    omega
  · simp
  · simp only [List.dropLast_concat]
    rcases List.eq_nil_or_concat r with rfl | ⟨r', c, rfl⟩
    · simp [hcnt, hacc]
    · simp only [List.concat_eq_append] at *
      simp at hlast hacc
      simp [hcnt, hacc, hlast, csum_snoc]
  · have hh : hidx v < 15 := by cases v <;> decide
    by_cases hc : s.cnt.toNat = hidx v
    · have hr : r.length = hidx v := by omega
      simp [hc, ← hr]
    · simp only [hc, if_false, hhok]
      by_cases hlt : hidx v < r.length
      · rw [List.getElem?_append_left hlt]
      · have : ¬ hidx v < (r ++ [b]).length := by simp; omega
        rw [List.getElem?_eq_none (by omega), List.getElem?_eq_none (by omega)]
  · intro k hk hkr
    have key : (if s.cnt.toNat < 14 then s.fbuf.setIfInBounds s.cnt.toNat b else s.fbuf)[k] =
        if s.cnt.toNat = k then b else s.fbuf[k] := by
      split
      · rw [Vector.getElem_setIfInBounds]
      · simp [show ¬ s.cnt.toNat = k by omega]
    simp only [key]
    simp only [List.length_append, List.length_singleton] at hkr
    by_cases hc : s.cnt.toNat = k
    · have hr : r.length = k := by omega
      simp [hc, ← hr]
    · have hlt : k < r.length := by omega
      rw [if_neg hc, List.getElem?_append_left hlt, hbuf k hk hlt]

/-- The verdict the registers give is that of level T (R141). -/
theorem rxVerdict_received {v : Variant} {r : List Byte} {s : State} (h : Received v r s) :
    validate v r = some (rxVerdict v s) := by
  obtain ⟨-, -, hcnt, hlast, hacc, hhok, -⟩ := h
  have h15 : rlen v < 15 := by cases v <;> decide
  have hpos := (rlen_pos v).2
  by_cases hl : r.length = rlen v
  · have hc : s.cnt.toNat = rlen v := by omega
    by_cases hh : r[hidx v]? = some (hval v)
    · have hlt : rlen v - 1 < r.length := by omega
      rw [validate_body hl hh (List.getElem?_eq_getElem hlt)]
      have ha : s.acc = csum (r.take (rlen v - 1)) := by rw [hacc, List.dropLast_eq_take, hl]
      have hb : s.last = r[rlen v - 1] := by
        rw [hlast, List.getLast?_eq_getElem?, hl, List.getElem?_eq_getElem hlt, Option.getD_some]
      simp [rxVerdict, hc, hhok.2 hh, ha, hb]
    · rw [validate_head hl hh]
      have : s.hok = false := by
        cases hs : s.hok
        · rfl
        · exact absurd (hhok.1 hs) hh
      simp [rxVerdict, hc, this]
  · rw [validate_len hl]
    have hc : s.cnt.toNat ≠ rlen v := by omega
    simp [rxVerdict, hc]

/-- The capture registers hold a response of the right length. -/
theorem Received.fbuf_eq {v : Variant} {r : List Byte} {s : State} (h : Received v r s) (hl : r.length = rlen v) :
    ∀ k, k < rlen v → s.fbuf[k]? = r[k]? := by
  intro k hk
  have h14 : rlen v ≤ 14 := by cases v <;> decide
  have hb := h.2.2.2.2.2.2 k (by omega) (by omega)
  rw [hb, Vector.getElem?_eq_getElem (by omega)]

/-- `rx_end` of `VALID` (R137). -/
theorem rxEndStep_valid {v : Variant} {s : State} (hv : variantOfVsel (vselOf s.cw) = some v)
    (ho : operationOfOpc (opcOf s.cw) = some .valid) :
    rxEndStep s = .next (answered { s with phase := .idle } s.frame (.valid (rxVerdict v s))) := by
  simp only [rxEndStep, hv, ho]; rfl

/-- `rx_end` of `PARSE` on a response rejected (R137). -/
theorem rxEndStep_parse_error {v : Variant} {s : State} (hv : variantOfVsel (vselOf s.cw) = some v)
    (ho : operationOfOpc (opcOf s.cw) = some .parse) (hw : (rxVerdict v s).ok = false) :
    rxEndStep s = .next (answered { s with phase := .idle } s.frame (.parseContract (rxVerdict v s).rej)) := by
  simp only [rxEndStep, hv, ho, hw]; rfl

/-- `rx_end` of `PARSE` on a response accepted (R137): the record is that of the capture registers. -/
theorem rxEndStep_parse_ok {v : Variant} {s : State} (hv : variantOfVsel (vselOf s.cw) = some v)
    (ho : operationOfOpc (opcOf s.cw) = some .parse) (hw : (rxVerdict v s).ok = true) :
    ∃ record, recordOf v (fun k => s.fbuf[k]?) = some record ∧
      rxEndStep s = .next (answered { s with phase := .idle } s.frame (.named record)) := by
  have h14 : rlen v ≤ 14 := by cases v <;> decide
  obtain ⟨record, hr, -⟩ := recordOf_eq (v := v) (read := fun k => s.fbuf[k]?) (lanes := s.fbuf.toList.take (rlen v))
    (by simp [h14]) (by intro k hk; simp [hk])
  refine ⟨record, hr, ?_⟩
  simp only [rxEndStep, hv, ho, hw, hr]; rfl

/-- What the verdict of the registers can be (R14). -/
theorem rxVerdict_cases (v : Variant) (s : State) :
    rxVerdict v s = accepted ∨ rxVerdict v s = rejectedLen ∨ rxVerdict v s = rejectedHead ∨
      rxVerdict v s = rejectedCsum s.acc s.last := by
  unfold rxVerdict
  split <;> (try split) <;> (try split) <;> simp

end Sys2Proof.Machine
end

