-- ==== Sys2Proof/Laws/Step.lean ====
section
/-! SUPPORT. What a step can do, said once: which labelled step it takes, and what accepting a command can answer. -/

namespace Sys2Proof.Machine

/-- Every operation answers, and changes FRAME, the result port and the host's record of labels only. -/
theorem exec_answers (i : Instr) (s : State) : ∃ m r, exec i s = .next (answered s m r) ∧
    (m = s.frame ∨ Memory.wf m = true) ∧ ResultWf r := by
  rw [← ofParts_self i]
  generalize i.variant = v
  cases ho : i.operation
  case valid =>
    obtain ⟨w, hw⟩ := validate_isSome v s.resp
    refine ⟨_, _, exec_valid hw, .inl rfl, ?_⟩
    rcases validate_cases hw with ⟨h, -⟩ | h | h | ⟨e, a, h, -⟩ <;> subst h <;>
      simp [ResultWf, accepted, rejectedLen, rejectedHead, rejectedCsum]
  case parse =>
    obtain ⟨w, hw⟩ := validate_isSome v s.resp
    rcases validate_cases hw with ⟨h, -⟩ | h | h | ⟨e, a, h, -⟩ <;> subst h
    · obtain ⟨record, he, -⟩ := exec_parse_ok hw
      exact ⟨_, _, he, .inl rfl, trivial⟩
    all_goals exact ⟨_, _, exec_parse_error hw rfl, .inl rfl, by simp [ResultWf, rejectedLen, rejectedHead, rejectedCsum]⟩
  case rlen => exact ⟨_, _, exec_rlen v s, .inl rfl, by cases v <;> simp [ResultWf, rlen]⟩
  case name => exact ⟨_, _, exec_name v s, .inl rfl, by cases v <;> simp [ResultWf, tag]⟩
  all_goals
    cases v <;>
    exact ⟨_, _, exec_constructor rfl, .inr (cellsFrom_wf (by simp [frameOf, ck, Instr.ofParts, Instr.variant, maxFrame])),
      by simp [ResultWf, frameOf, ck, Instr.ofParts, Instr.variant]⟩

/-- The state in which a command is run: its operands, and at level T its response, on the ports. -/
def ported : Command → State → State
  | .whole _ op resp, s => presentResponse resp (present op s)
  | .serial _ op, s => present op s

/-- What accepting a command answers: a result at once, or the start of an EMIT or a RECV phase. -/
theorem accept_cases (c : Command) (s : State) :
    (∃ m r, accept c s = .next (answered (ported c s) m r) ∧ (m = s.frame ∨ Memory.wf m = true) ∧ ResultWf r) ∨
    (∃ cw op i base, accept c s = .next (startEmit cw op (ported c s)) ∧ decode cw = .ok i ∧
      baseList cw op = some base) ∨
    (∃ cw op i, accept c s = .next (startRecv cw op (ported c s)) ∧ decode cw = .ok i ∧
      (i.operation = .valid ∨ i.operation = .parse)) := by
  cases c with
  | whole cw op resp =>
    rcases decode_cases cw with h | ⟨i, h⟩
    · refine .inl ⟨s.frame, .cmdReserved cw, ?_, .inl rfl, (decode_error_iff cw).1 h⟩
      simp only [accept, h]; rfl
    · obtain ⟨m, r, he, hm, hr⟩ := exec_answers i (presentResponse resp (present op s))
      refine .inl ⟨m, r, ?_, hm, hr⟩
      simp only [accept, h, he]; rfl
  | serial cw op =>
    rcases decode_cases cw with h | ⟨i, h⟩
    · exact .inl ⟨s.frame, .cmdReserved cw, cmdStep_reserved op _ h, .inl rfl, (decode_error_iff cw).1 h⟩
    · cases ho : i.operation
      case rlen =>
        refine .inl ⟨s.frame, .const (.length (BitVec.ofNat 8 (rlen i.variant))), ?_, .inl rfl, ?_⟩
        · simp only [accept, cmdStep, h, ho]; rfl
        · cases i.variant <;> simp [ResultWf, rlen]
      case name =>
        refine .inl ⟨s.frame, .const (.tag (tag i.variant)), ?_, .inl rfl, ?_⟩
        · simp only [accept, cmdStep, h, ho]; rfl
        · cases i.variant <;> simp [ResultWf, tag]
      case valid => exact .inr (.inr ⟨cw, op, i, cmdStep_response op _ h (.inl ho), h, .inl ho⟩)
      case parse => exact .inr (.inr ⟨cw, op, i, cmdStep_response op _ h (.inr ho), h, .inr ho⟩)
      all_goals
        obtain ⟨base, hb⟩ := (baseList_isSome_iff i op).2 (by simp [ho])
        refine .inr (.inl ⟨cw, op, i, base, cmdStep_constructor op _ h (by simp [ho]), h, ?_⟩)
        rwa [encode_of_decode h] at hb

/-- Where no held command is taken, a step is the next of the offers. -/
theorem step_offers {s : State} (h : s.held = [] ∨ s.phase ≠ .idle) : step s = advanceOffers s := by
  unfold step advance
  split
  · rename_i c cs hc
    rcases h with h | h
    · rw [hc] at h; cases h
    · exact if_neg h
  · rfl

/-- A held command is taken as soon as PHASE is IDLE. -/
theorem step_held {s : State} {c : Command} {cs : List Command} (hi : s.phase = .idle) (h : s.held = c :: cs) :
    step s = accept c { s with held := cs } := by
  simp [step, advance, h, hi]

/-- A command offered to an idle block with none held is taken. -/
theorem step_command {s : State} {c : Command} {es : List Event} (hi : s.phase = .idle) (hh : s.held = [])
    (h : s.inbox = .command c :: es) : step s = accept c { s with inbox := es } := by
  rw [step_offers (.inl hh)]
  simp [advanceOffers, h, offer, hi]

/-- In EMIT a slot, or no offer at all, lets the block take its `tx` step. -/
theorem step_tx {s : State} {es : List Event} (hp : s.phase = .emit) (h : s.inbox = .tx :: es) :
    step s = txStep { s with inbox := es } := by
  rw [step_offers (.inr (by simp [hp]))]
  simp [advanceOffers, h, offer, hp]

theorem step_tx_alone {s : State} (hp : s.phase = .emit) (h : s.inbox = []) : step s = txStep s := by
  rw [step_offers (.inr (by simp [hp]))]
  simp [advanceOffers, h, hp]

theorem step_rx {s : State} {b : Byte} {es : List Event} (hp : s.phase = .recv) (h : s.inbox = .rx b :: es) :
    step s = rxStep b { s with inbox := es } := by
  rw [step_offers (.inr (by simp [hp]))]
  simp [advanceOffers, h, offer, hp]

theorem step_rxEnd {s : State} {es : List Event} (hp : s.phase = .recv) (h : s.inbox = .rxEnd :: es) :
    step s = rxEndStep { s with inbox := es } := by
  rw [step_offers (.inr (by simp [hp]))]
  simp [advanceOffers, h, offer, hp]

theorem step_reset {s : State} {es : List Event} (hh : s.held = [] ∨ s.phase ≠ .idle) (h : s.inbox = .reset :: es) :
    step s = .next (resetStep { s with inbox := es }) := by
  rw [step_offers hh]
  simp [advanceOffers, h, offer]

/-- What a step can do: every way to a next state. -/
theorem step_cases {s t : State} (h : step s = .next t) :
    (∃ c u, s.phase = .idle ∧ u.frame = s.frame ∧ u.outbox = s.outbox ∧ u.phase = .idle ∧ accept c u = .next t) ∨
    (∃ c es, s.phase ≠ .idle ∧ t = hold c { s with inbox := es }) ∨
    (∃ es, s.phase = .emit ∧ txStep { s with inbox := es } = .next t) ∨
    (∃ es, t = { s with inbox := es }) ∨
    (∃ b es, s.phase = .recv ∧ rxStep b { s with inbox := es } = .next t) ∨
    (∃ es, s.phase = .recv ∧ rxEndStep { s with inbox := es } = .next t) ∨
    ∃ es, t = resetStep { s with inbox := es } := by
  by_cases hh : s.held = [] ∨ s.phase ≠ .idle
  · rw [step_offers hh] at h
    unfold advanceOffers at h
    split at h
    · rename_i e es he
      cases e with
      | command c =>
        simp only [offer] at h
        split at h
        · rename_i hi
          exact .inl ⟨c, { s with inbox := es }, hi, rfl, rfl, hi, h⟩
        · rename_i hi
          exact .inr (.inl ⟨c, es, hi, by cases h; rfl⟩)
      | tx =>
        simp only [offer] at h
        split at h
        · rename_i hp
          exact .inr (.inr (.inl ⟨es, hp, h⟩))
        · exact .inr (.inr (.inr (.inl ⟨es, by cases h; rfl⟩)))
      | rx b =>
        simp only [offer] at h
        split at h
        · rename_i hp
          exact .inr (.inr (.inr (.inr (.inl ⟨b, es, hp, h⟩))))
        · cases h
      | rxEnd =>
        simp only [offer] at h
        split at h
        · rename_i hp
          exact .inr (.inr (.inr (.inr (.inr (.inl ⟨es, hp, h⟩)))))
        · cases h
      | reset => exact .inr (.inr (.inr (.inr (.inr (.inr ⟨es, by cases h; rfl⟩)))))
    · split at h
      · rename_i hp
        exact .inr (.inr (.inl ⟨s.inbox, hp, h⟩))
      · exact .inr (.inr (.inr (.inl ⟨s.inbox, by cases h; rfl⟩)))
  · simp only [not_or, not_not] at hh
    obtain ⟨c, cs, hc⟩ := List.exists_cons_of_ne_nil hh.1
    rw [step_held hh.2 hc] at h
    exact .inl ⟨c, { s with held := cs }, hh.2, rfl, rfl, hh.2, h⟩

/-- A run of one more step. -/
theorem run_succ {s t : State} (k : Nat) (h : step s = .next t) :
    Host.Core.run core (k + 1) s = Host.Core.run core k t := by
  simp only [Host.Core.run, show core.step s = .next t from h]

end Sys2Proof.Machine
end

