-- ==== Sys2Proof/Tests/Slice0.lean ====
section
/-! SUPPORT. The model's own tests: ill-formed terms refused, every command word decoded, one-step results against the vectors of
spec/95_test_vectors.md (section numbers in each comment), and for every statement with hypotheses a state that meets them. -/

namespace Sys2Proof.Tests

open Sys2Proof.Machine

/-! Helpers. -/

/-- An idle block just after reset with these ports. -/
def portState (op : Operands) (resp : List Byte) : State := { State.reset with op := op, resp := resp }

/-- An idle block just after reset with these offers. -/
def offered (es : List Event) : State := { State.reset with inbox := es }

def resultOf : Outcome → Option Result
  | .next t => t.resPort
  | _ => none

def frameAfter : Outcome → Memory
  | .next t => t.frame
  | _ => []

def nextOf : Outcome → Option State
  | .next t => some t
  | _ => none

def faultOf : Outcome → Option Fault
  | .fault f => some f
  | _ => none

/-- persist, FF, 80, 00, ww 77, cw 66, COLORS, on: every operand with a value of its own. -/
def opOn : Operands :=
  { turnOn := true, persist := true, red := 0xFF, green := 0x80, blue := 0x00, warmWhite := 0x77, coolWhite := 0x66,
    mode := 0xF0 }

/-- nopersist, 0, 0, 0, FF, WHITES, off. -/
def opOff : Operands :=
  { turnOn := false, persist := false, red := 0, green := 0, blue := 0, warmWhite := 0xFF, coolWhite := 0, mode := 0x0F }

/-- Scenario 4 of section 1.1. -/
def opScenario : Operands :=
  { turnOn := false, persist := true, red := 0xBC, green := 0xC1, blue := 0xFF, warmWhite := 0, coolWhite := 0, mode := 0xF0 }

/-- Scenario 5 of section 1.1 with last byte `x`. -/
def response14 (x : Byte) : List Byte :=
  [0x81, 0x25, 0x23, 0x61, 0x21, 0x06, 0x38, 0x05, 0x06, 0xF9, 0x01, 0x00, 0x0F, x]

/-- R1 and R2 of section 3.2: index 1 is `x`. -/
def response11 (x : Byte) : List Byte := [0x66, x, 0x23, 0x41, 0x21, 0x0A, 0xFF, 0x00, 0x00, 0x01, 0x99]

/-! Well-formedness: for each check an ill-formed term that it refuses. -/

theorem test_reserved_variant_refused : CommandWord.wellFormed 0x18 = false := by decide
theorem test_reserved_operation_refused : CommandWord.wellFormed 0x07 = false := by decide
theorem test_legal_word_passes : CommandWord.wellFormed 0x16 = true := by decide
theorem test_byte_literal_bounds : byteLiteral 255 = true ∧ byteLiteral 256 = false := by decide
theorem test_mode_literal_refused :
    (ModeOperand.literal 256).wellFormed = false ∧ (ModeOperand.code .whites).wellFormed = true := by decide
theorem test_levelsO_line_refused : (Asm.levelsO 0 256 0).wellFormed = false := by decide
theorem test_levels8_line_refused :
    (Asm.levels8 true 0 0 0 256 (.code .all)).wellFormed = false ∧
    (Asm.levels8 true 0 0 0 0 (.literal 256)).wellFormed = false := by decide
theorem test_levels9_line_refused : (Asm.levels9 true 0 0 0 0 256 (.code .all)).wellFormed = false := by decide
theorem test_valid_line_refused : (Asm.valid .b8 [0, 256]).wellFormed = false := by decide
theorem test_parse_line_refused : (Asm.parse .orig [300]).wellFormed = false := by decide
theorem test_word_line_refused : (Asm.word 32).wellFormed = false ∧ (Asm.word 31).wellFormed = true := by decide
theorem test_ill_formed_line_is_not_assembled : assemble (.levelsO 0 0 256) .zero [] = none := by decide

/-! Decoding: every row of 30_encoding.md R70, the word written out bit by bit as vsel then opc. -/

theorem test_decode_original :
    decodeTableWord 8 0b00000 = some .queryO ∧ decodeTableWord 8 0b00001 = some .stchgO ∧
    decodeTableWord 8 0b00010 = some .levelsO ∧ decodeTableWord 8 0b00011 = some .validO ∧
    decodeTableWord 8 0b00100 = some .parseO ∧ decodeTableWord 8 0b00101 = some .rlenO ∧
    decodeTableWord 8 0b00110 = some .nameO := by decide
theorem test_decode_eight_byte :
    decodeTableWord 8 0b01000 = some .query8 ∧ decodeTableWord 8 0b01001 = some .stchg8 ∧
    decodeTableWord 8 0b01010 = some .levels8 ∧ decodeTableWord 8 0b01011 = some .valid8 ∧
    decodeTableWord 8 0b01100 = some .parse8 ∧ decodeTableWord 8 0b01101 = some .rlen8 ∧
    decodeTableWord 8 0b01110 = some .name8 := by decide
theorem test_decode_nine_byte :
    decodeTableWord 8 0b10000 = some .query9 ∧ decodeTableWord 8 0b10001 = some .stchg9 ∧
    decodeTableWord 8 0b10010 = some .levels9 ∧ decodeTableWord 8 0b10011 = some .valid9 ∧
    decodeTableWord 8 0b10100 = some .parse9 ∧ decodeTableWord 8 0b10101 = some .rlen9 ∧
    decodeTableWord 8 0b10110 = some .name9 := by decide
theorem test_encode_fields : encode .levels8 = 0x0A ∧ encode .parse9 = 0x14 ∧ encode .nameO = 0x06 := by decide
theorem test_reserved_rejected_by_name :
    decodeBytes [0x1F] = .error (.reserved 0x1F) ∧ decodeBytes [0x0F] = .error (.reserved 0x0F) := by decide
theorem test_wide_byte_rejected_by_name : decodeBytes [0x20] = .error (.notACommandWord 0x20) := by decide
theorem test_empty_rejected_by_name : decodeBytes [] = .error .empty := by decide
theorem test_rest_handed_back : decodeBytes [0x08, 0xFF] = .ok (.query8, [0xFF]) := by decide
theorem test_instr_well_formed : Instr.wellFormed .levels9 = true := by decide

/-! The helpers of R84 to R88 (section 2.1). -/

theorem test_checksum_vectors :
    csum [] = 0 ∧ csum [0xFF, 0x01] = 0 ∧ csum [0x80, 0x80] = 0 ∧ csum (List.replicate 13 0xFF) = 0xF3 ∧
    csum [0x81, 0x8A, 0x8B] = 0x96 ∧ csum [0x71, 0x24, 0x0F] = 0xA4 := by decide
theorem test_framing_vectors :
    frameOf .orig [0xEF, 0x01, 0x77] = [0xEF, 0x01, 0x77] ∧ frameOf .b8 [0x81, 0x8A, 0x8B] = [0x81, 0x8A, 0x8B, 0x96] := by
  decide
theorem test_frame_write_bounds :
    frameWrite [] 8 0x50 = some [(8, 0x50)] ∧ frameWrite [] 9 0x50 = none ∧
    frameWrite [(3, 1), (5, 2)] 4 7 = some [(3, 1), (4, 7), (5, 2)] ∧ frameWrite [(3, 1)] 3 7 = some [(3, 7)] := by decide

/-! One operation each (sections 1.1, 2.2 to 2.4, 3). -/

theorem test_queryO : resultOf (exec .queryO (portState opOn [])) = some (.frame [0xEF, 0x01, 0x77]) := by decide
theorem test_stchgO_on : resultOf (exec .stchgO (portState opOn [])) = some (.frame [0xCC, 0x23, 0x33]) := by decide
theorem test_stchgO_off : resultOf (exec .stchgO (portState opOff [])) = some (.frame [0xCC, 0x24, 0x33]) := by decide
theorem test_levelsO_ignores_whites :
    resultOf (exec .levelsO (portState opOn [])) = some (.frame [0x56, 0xFF, 0x80, 0x00, 0xAA]) := by decide
theorem test_validO_index1 :
    resultOf (exec .validO (portState .zero (response11 0x02))) = some (.valid rejectedHead) := by decide
theorem test_validO_accepts : resultOf (exec .validO (portState .zero (response11 0x01))) = some (.valid accepted) := by decide
theorem test_parseO_eleven_fields :
    resultOf (exec .parseO (portState .zero (response11 0x01))) = some (.named (.orig
      { head := 0x66, modelNum := 0x01, powerState := 0x23, presetPattern := 0x41, mode := 0x21, speed := 0x0A, red := 0xFF,
        green := 0x00, blue := 0x00, warmWhite := 0x01, checkSum := 0x99 })) := by decide
theorem test_parseO_invalid :
    resultOf (exec .parseO (portState .zero (response11 0x00))) = some (.parseContract .head) := by decide
theorem test_rlenO : resultOf (exec .rlenO State.reset) = some (.const (.length 11)) := by decide
theorem test_nameO : resultOf (exec .nameO State.reset) = some (.const (.tag 0)) := by decide

theorem test_query8_not_0x98 :
    resultOf (exec .query8 (portState opOn [])) = some (.frame [0x81, 0x8A, 0x8B, 0x96]) := by decide
theorem test_stchg8_on : resultOf (exec .stchg8 (portState opOn [])) = some (.frame [0x71, 0x23, 0x0F, 0xA3]) := by decide
theorem test_stchg8_off : resultOf (exec .stchg8 (portState opOff [])) = some (.frame [0x71, 0x24, 0x0F, 0xA4]) := by decide
/-- Section 3.4, first line: two bytes 0F side by side. -/
theorem test_levels8_whites :
    resultOf (exec .levels8 (portState opOff [])) = some (.frame [0x41, 0, 0, 0, 0xFF, 0x0F, 0x0F, 0x5E]) := by decide
theorem test_levels8_frame_space :
    frameRead (frameAfter (exec .levels8 (portState opOff []))) 7 = some 0x5E ∧
    frameRead (frameAfter (exec .levels8 (portState opOff []))) 8 = none := by decide
theorem test_valid8_accepts : resultOf (exec .valid8 (portState .zero (response14 0x9D))) = some (.valid accepted) := by decide
theorem test_valid8_off_by_one :
    resultOf (exec .valid8 (portState .zero (response14 0x9E))) = some (.valid (rejectedCsum 0x9D 0x9E)) := by decide
theorem test_parse8_fourteen_fields :
    resultOf (exec .parse8 (portState .zero (response14 0x9D))) = some (.named (.ext
      { head := 0x81, modelNum := 0x25, powerState := 0x23, presetPattern := 0x61, mode := 0x21, speed := 0x06, red := 0x38,
        green := 0x05, blue := 0x06, warmWhite := 0xF9, versionNumber := 0x01, coolWhite := 0x00, colorMode := 0x0F,
        checkSum := 0x9D })) := by decide
/-- Section 4: a wrong checksum gives no record. -/
theorem test_parse8_invalid :
    resultOf (exec .parse8 (portState .zero (response14 0x00))) = some (.parseContract .csum) := by decide
theorem test_rlen8 : resultOf (exec .rlen8 State.reset) = some (.const (.length 14)) := by decide
theorem test_name8 : resultOf (exec .name8 State.reset) = some (.const (.tag 1)) := by decide

theorem test_query9 : resultOf (exec .query9 (portState opOn [])) = some (.frame [0x81, 0x8A, 0x8B, 0x96]) := by decide
theorem test_stchg9_on : resultOf (exec .stchg9 (portState opOn [])) = some (.frame [0x71, 0x23, 0x0F, 0xA3]) := by decide
theorem test_stchg9_off : resultOf (exec .stchg9 (portState opOff [])) = some (.frame [0x71, 0x24, 0x0F, 0xA4]) := by decide
theorem test_levels9_scenario4 :
    resultOf (exec .levels9 (portState opScenario [])) =
      some (.frame [0x31, 0xBC, 0xC1, 0xFF, 0x00, 0x00, 0xF0, 0x0F, 0xAC]) := by decide
/-- Cool white stands at index 5, the mode at index 6. -/
theorem test_levels9_cool_white :
    resultOf (exec .levels9 (portState opOn [])) =
      some (.frame [0x31, 0xFF, 0x80, 0x00, 0x77, 0x66, 0xF0, 0x0F, 0x8C]) := by decide
theorem test_valid9_diagnostic :
    resultOf (exec .valid9 (portState .zero (response14 0x9C))) = some (.valid (rejectedCsum 0x9D 0x9C)) := by decide
/-- Section 2.3: the all-zero response is a header error although its checksum is right. -/
theorem test_valid9_all_zero :
    resultOf (exec .valid9 (portState .zero (List.replicate 14 0))) = some (.valid rejectedHead) := by decide
theorem test_parse9_wrong_length :
    resultOf (exec .parse9 (portState .zero (response11 0x01))) = some (.parseContract .len) := by decide
theorem test_parse9_accepts :
    (resultOf (exec .parse9 (portState .zero (response14 0x9D)))).map (fun r => match r with
      | .named rec => namedLanes rec
      | _ => []) = some (response14 0x9D) := by decide
theorem test_rlen9 : resultOf (exec .rlen9 State.reset) = some (.const (.length 14)) := by decide
theorem test_name9 : resultOf (exec .name9 State.reset) = some (.const (.tag 2)) := by decide

/-! One step each of level S and of the offers (section 5). -/

/-- Section 5.5 after seven `tx`: `IDX` 7, `ACC` 0x9D. -/
def emitting : State :=
  { State.reset with
    phase := .emit, cw := 0x12, opl := opScenario, idx := 7, acc := 0x9D,
    frame := [(0, 0x31), (1, 0xBC), (2, 0xC1), (3, 0xFF), (4, 0x00), (5, 0x00), (6, 0xF0)] }

/-- Section 5.5 after eight `tx`: only the checksum byte is to come. -/
def emittingLast : State :=
  { emitting with idx := 8, acc := 0xAC, frame := emitting.frame ++ [(7, 0x0F)] }

/-- Section 5.6 after two `tx`: the Original's third byte is the last. -/
def emittingOriginal : State :=
  { State.reset with
    phase := .emit, cw := 0x01, opl := opOn, idx := 2, acc := 0xEF, frame := [(0, 0xCC), (1, 0x23)] }

/-- A block in RECV for `VALID.8`, nothing received. -/
def receiving : State := { State.reset with phase := .recv, cw := 0x0B }

/-- Section 5.4 after the 14th `rx`. -/
def receivedFourteen : State :=
  { receiving with cnt := 14, acc := 0x8D, last := 0x81, hok := true, fbuf := Vector.replicate 14 0x81 }

theorem test_tx_keeps_emitting :
    (nextOf (step { emitting with inbox := [.tx] })).map (fun t => (t.phase, t.idx, t.acc, t.outbox)) =
      some (.emit, 8, 0xAC, [.tx 0x0F false]) := by decide
theorem test_tx_emits_checksum :
    (nextOf (step emittingLast)).map (fun t => (t.phase, t.idx, t.acc, t.outbox)) =
      some (.idle, 9, 0xAC, [.tx 0xAC true, .res (.frame [0x31, 0xBC, 0xC1, 0xFF, 0x00, 0x00, 0xF0, 0x0F, 0xAC])]) := by
  decide
theorem test_tx_original_last :
    (nextOf (step emittingOriginal)).map (fun t => (t.phase, t.idx, t.acc, t.resPort)) =
      some (.idle, 3, 0x22, some (.frame [0xCC, 0x23, 0x33])) := by decide
theorem test_rx_first_byte :
    (nextOf (step { receiving with inbox := [.rx 0x81] })).map (fun t => (t.cnt, t.acc, t.last, t.hok)) =
      some (1, 0x00, 0x81, true) := by decide
theorem test_rx_saturates :
    (nextOf (step { receivedFourteen with inbox := [.rx 0x82] })).map
      (fun t => (t.cnt, t.acc, t.last, t.hok, t.fbuf.toList)) =
      some (15, 0x0E, 0x82, true, List.replicate 14 0x81) := by decide
theorem test_rx_end_checksum :
    (nextOf (step { receivedFourteen with inbox := [.rxEnd] })).map (fun t => (t.phase, t.resPort)) =
      some (.idle, some (.valid (rejectedCsum 0x8D 0x81))) := by decide
theorem test_rx_end_parse :
    (nextOf (step { receivedFourteen with cw := 0x0C, acc := 0x81, inbox := [.rxEnd] })).map
      (fun t => match t.resPort with
        | some (.named rec) => namedLanes rec
        | _ => []) = some (List.replicate 14 0x81) := by decide
theorem test_reset_abandons :
    (nextOf (step { emitting with inbox := [.reset] })).map (fun t => (t.phase, t.cw, t.idx, t.acc)) =
      some (.idle, 0, 0, 0) := by decide
theorem test_reserved_word_answers :
    resultOf (step (offered [.command (.serial 0x1F opOn)])) = some (.cmdReserved 0x1F) := by decide
theorem test_whole_command_runs :
    resultOf (step (offered [.command (.whole 0x0B opOn (response14 0x9D))])) = some (.valid accepted) := by decide
theorem test_command_held_while_busy :
    (nextOf (step { receiving with inbox := [.command (.serial 0x08 opOn)] })).map (fun t => (t.phase, t.held)) =
      some (.recv, [.serial 0x08 opOn]) := by decide
/-- The bytes that `rx` carries do not reach the response port (log 21). -/
theorem test_rx_leaves_response_port :
    (nextOf (step { receiving with resp := [7], inbox := [.rx 0x81] })).map (fun t => (t.resp, t.last)) = some ([7], 0x81) := by
  decide
theorem test_rx_outside_recv_faults :
    faultOf (step (offered [.rx 0x81])) = some .rxOutsideRecv ∧ faultOf (step (offered [.rxEnd])) = some .rxEndOutsideRecv := by
  decide
theorem test_fetch_word_runs :
    resultOf (step (State.reset.withFetchWord 8 0x08)) = some (.frame [0x81, 0x8A, 0x8B, 0x96]) := by decide
theorem test_fetch_word_of_no_word : State.reset.withFetchWord 8 0x28 = State.reset := by decide

/-! Witnesses: for every statement with hypotheses, states and operands that meet them together, each clause at its bounds. -/

theorem test_witness_StateChange : opOn.turnOn = true ∧ opOff.turnOn = false := by decide
theorem test_witness_LevelsEight :
    ((0x31 : Byte) = (if opOn.persist then 0x31 else 0x41) ∧
      (0x26 : Byte) = BitVec.ofNat 8 (((0x31 : Byte).toNat + opOn.red.toNat + opOn.green.toNat + opOn.blue.toNat +
        opOn.warmWhite.toNat + opOn.mode.toNat + 0x0F) % 256)) ∧
    ((0x41 : Byte) = (if opOff.persist then 0x31 else 0x41) ∧
      (0x5E : Byte) = BitVec.ofNat 8 (((0x41 : Byte).toNat + opOff.red.toNat + opOff.green.toNat + opOff.blue.toNat +
        opOff.warmWhite.toNat + opOff.mode.toNat + 0x0F) % 256)) := by decide
theorem test_witness_LevelsNine :
    (0x31 : Byte) = (if opScenario.persist then 0x31 else 0x41) ∧
    (0xAC : Byte) = BitVec.ofNat 8 (((0x31 : Byte).toNat + opScenario.red.toNat + opScenario.green.toNat +
      opScenario.blue.toNat + opScenario.warmWhite.toNat + opScenario.coolWhite.toNat + opScenario.mode.toNat + 0x0F) % 256) := by
  decide
theorem test_witness_ValidOriginal :
    (List.replicate 10 (0x01 : Byte)).length ≠ 11 ∧ (List.replicate 12 (0x01 : Byte)).length ≠ 11 ∧ ([] : List Byte).length ≠ 11 ∧
    ((response11 0x02).length = 11 ∧ (response11 0x02)[1]? ≠ some 0x01) ∧
    ((response11 0x01).length = 11 ∧ (response11 0x01)[1]? = some 0x01) := by decide
theorem test_witness_ValidChecked :
    ((response14 0x9D).dropLast.length ≠ 14 ∧ (0x81 :: response14 0x9D).length ≠ 14) ∧
    ((List.replicate 14 (0 : Byte)).length = 14 ∧ (List.replicate 14 (0 : Byte))[0]? ≠ some 0x81) ∧
    ((response14 0x9D).length = 14 ∧ (response14 0x9D)[0]? = some 0x81 ∧ (response14 0x9D)[13]? = some 0x9D ∧
      (0x9D : Byte) = BitVec.ofNat 8 ((((response14 0x9D).take 13).map BitVec.toNat).sum % 256)) ∧
    ((response14 0x9C).length = 14 ∧ (response14 0x9C)[0]? = some 0x81 ∧ (response14 0x9C)[13]? = some 0x9C ∧
      (0x9D : Byte) = BitVec.ofNat 8 ((((response14 0x9C).take 13).map BitVec.toNat).sum % 256) ∧ (0x9D : Byte) ≠ 0x9C) := by
  decide
theorem test_witness_ParseOriginal :
    (portState .zero (response11 0x01)).resp = [0x66, 0x01, 0x23, 0x41, 0x21, 0x0A, 0xFF, 0x00, 0x00, 0x01, 0x99] := rfl
theorem test_witness_ParseChecked :
    (portState .zero (response14 0x9D)).resp =
      [0x81, 0x25, 0x23, 0x61, 0x21, 0x06, 0x38, 0x05, 0x06, 0xF9, 0x01, 0x00, 0x0F, 0x9D] ∧
    (0x9D : Byte) = 0x81 + 0x25 + 0x23 + 0x61 + 0x21 + 0x06 + 0x38 + 0x05 + 0x06 + 0xF9 + 0x01 + 0x00 + 0x0F := by decide
theorem test_witness_ParseOfInvalid :
    (exec (Instr.ofParts .orig .valid) State.reset = .next (answered State.reset [] (.valid rejectedLen)) ∧
      rejectedLen.ok = false) ∧
    (exec (Instr.ofParts .b8 .valid) (portState .zero (response14 0)) =
        .next (answered (portState .zero (response14 0)) [] (.valid (rejectedCsum 0x9D 0))) ∧
      (rejectedCsum 0x9D 0).ok = false) ∧
    (exec (Instr.ofParts .b9 .valid) (portState .zero (List.replicate 14 0)) =
        .next (answered (portState .zero (List.replicate 14 0)) [] (.valid rejectedHead)) ∧ rejectedHead.ok = false) :=
  ⟨⟨rfl, rfl⟩, ⟨exec_valid (v := .b8) (s := portState .zero (response14 0)) (by decide), rfl⟩,
    ⟨exec_valid (v := .b9) (s := portState .zero (List.replicate 14 0)) (by decide), rfl⟩⟩
theorem test_witness_ParseNamed :
    ∃ record, exec (Instr.ofParts .b8 .parse) (portState .zero (response14 0x9D)) =
      .next (answered (portState .zero (response14 0x9D)) [] (.named record)) := by
  obtain ⟨record, h, -⟩ := exec_parse_ok (v := .b8) (s := portState .zero (response14 0x9D)) (by decide)
  exact ⟨record, h⟩
/-- Three different strings: the choices of the open parameter are not empty. -/
theorem test_witness_NameTexts : ∃ names : NameStrings, names.text .b9 = "c" :=
  ⟨{ text := fun v => match v with
      | .orig => "a"
      | .b8 => "b"
      | .b9 => "c"
     injective := by intro v w; cases v <;> cases w <;> decide }, rfl⟩
theorem test_witness_IgnoredOperands :
    SameReadOperands .queryO (portState opOn []) (portState opOff [1]) ∧
    SameReadOperands .levelsO (portState opScenario []) (portState { opScenario with persist := false, mode := 1 } []) ∧
    SameReadOperands .levels8 (portState opOn []) (portState { opOn with turnOn := false, coolWhite := 0 } []) ∧
    SameReadOperands .levels9 (portState opOn []) (portState { opOn with turnOn := false } [7]) ∧
    SameReadOperands .stchg8 (portState opOff []) (portState opScenario []) ∧
    SameReadOperands .valid8 (portState opOn [1]) (portState opOff [1]) :=
  ⟨trivial, ⟨rfl, rfl, rfl⟩, ⟨rfl, rfl, rfl, rfl, rfl, rfl⟩, ⟨rfl, rfl, rfl, rfl, rfl, rfl, rfl⟩, rfl, rfl⟩
theorem test_witness_Constructors :
    Instr.variant .levels9 = .b9 ∧ Instr.operation .levels9 = .levels ∧ Instr.operation .queryO = .query ∧
    Instr.variant .stchg8 = .b8 ∧ Instr.operation .stchg8 = .stchg := by decide
theorem test_witness_RoundTrip :
    ((response14 0x9D).length = 14 ∧ (response14 0x9D)[0]? = some 0x81 ∧
      (response14 0x9D)[13]? = some (BitVec.ofNat 8 ((((response14 0x9D).take 13).map BitVec.toNat).sum % 256))) ∧
    ((response11 0x01).length = 11 ∧ (response11 0x01)[1]? = some 0x01) ∧
    (response11 0x01).length ≠ (if Variant.b9 = .orig then 11 else 14) := by decide
theorem test_witness_ChecksumOrder :
    ([1, 2, 3] : List Byte).Perm [3, 2, 1] ∧ (2 < ([1, 2, 3] : List Byte).length ∧ ([1, 2, 3] : List Byte)[2]? ≠ some 4) := by
  decide
theorem test_witness_FrameLengths :
    (Instr.levels9, 8, true, 9) ∈ ([(.levelsO, 5, false, 5), (.levels9, 8, true, 9)] : List (Instr × Nat × Bool × Nat)) := by
  decide
theorem test_witness_OneChangedByte :
    exec .valid8 (portState .zero (response14 0x9D)) =
      .next (answered (portState .zero (response14 0x9D)) [] (.valid { ok := true, rej := .none, diag := none })) ∧
    (0 < (response14 0x9D).length ∧ (response14 0x9D)[0]? ≠ some 0x80) ∧
    (13 < (response14 0x9D).length ∧ (response14 0x9D)[13]? ≠ some 0x9C) :=
  ⟨exec_valid (v := .b8) (s := portState .zero (response14 0x9D)) (w := accepted) (by decide), by decide, by decide⟩
theorem test_witness_FramedBody :
    (response14 0).dropLast.length = 13 ∧ (response14 0).dropLast[0]? = some 0x81 ∧
    (portState .zero (response14 0x9D)).resp = frameOf .b8 (response14 0).dropLast := by decide
theorem test_witness_DecodeEncode :
    decode 0x12 = .ok .levels9 ∧ decodeBytes [0x12, 0x34] = .ok (.levels9, [0x34]) := by decide
theorem test_witness_AssembledLine :
    (assemble (.levels8 true 255 0 0 0 (.literal 0xF0)) State.reset.op State.reset.resp =
      some (.whole 0x0A { Operands.zero with persist := true, red := 0xFF, mode := 0xF0 } [])) ∧
    (offered [.command (.whole 0x0A { Operands.zero with persist := true, red := 0xFF, mode := 0xF0 } [])]).phase = .idle ∧
    (offered []).held = [] ∧ 256 ≤ 256 := by decide
theorem test_witness_AssembledLine_runs :
    resultOf (step (offered [.command (.whole 0x0A { Operands.zero with persist := true, red := 0xFF, mode := 0xF0 } [])])) =
      some (.frame [0x31, 0xFF, 0x00, 0x00, 0x00, 0xF0, 0x0F, 0x2F]) := by decide
theorem test_witness_Expand : expand (.on .b8) ≠ .on .b8 := by decide
theorem test_witness_StepRuns :
    (decode 0x08 = .ok .query8 ∧ (offered [.command (.whole 0x08 opOn [])]).phase = .idle ∧
      (offered [.command (.whole 0x08 opOn [])]).held = []) ∧
    ({ State.reset with held := [.whole 0x08 opOn []] } : State).phase = .idle ∧ decodeTableWord 8 0x08 = some .query8 := by
  decide
theorem test_witness_ReservedWord :
    CommandWord.reserved 0x07 = true ∧ CommandWord.reserved 0x18 = true ∧ (offered []).phase = .idle ∧ (offered []).held = [] := by
  decide
theorem test_witness_CommandStep :
    decode 0x0D = .ok .rlen8 ∧ decode 0x06 = .ok .nameO ∧ decode 0x0A = .ok .levels8 ∧ decode 0x14 = .ok .parse9 ∧
    (offered [.command (.serial 0x0A opOn)]).phase = .idle ∧ (offered [.command (.serial 0x0A opOn)]).held = [] := by decide
theorem test_witness_TransactionClearsPorts :
    (∃ t, step (offered [.command (.serial 0x0A opOn)]) = .next t ∧ t.phase = .emit) ∧
    ∃ t, step (offered [.command (.serial 0x14 opOn)]) = .next t ∧ t.phase = .recv := ⟨⟨_, rfl, rfl⟩, ⟨_, rfl, rfl⟩⟩
/-- A `tx` that is not the last, with and without a slot, and an `rx`; the invariant's hypotheses on the same states. -/
theorem test_witness_TransactionClearsPorts_running :
    (emitting.inbox = [] ∧ emitting.resPort = none ∧ ∃ t, step emitting = .next t ∧ t.phase = .emit) ∧
    (∃ t, step { emitting with inbox := [.tx] } = .next t ∧ t.phase = .emit) ∧
    (receiving.resPort = none ∧ ∃ t, step { receiving with inbox := [.rx 0x81] } = .next t ∧ t.phase = .recv) :=
  ⟨⟨rfl, rfl, _, rfl, rfl⟩, ⟨_, rfl, rfl⟩, rfl, _, rfl, rfl⟩
/-- `tx` in the middle of a frame, at its checksum byte, and at the Original's last byte. -/
theorem test_witness_TransmitStep :
    (emitting.phase = .emit ∧ variantOfVsel (vselOf emitting.cw) = some .b9 ∧ emitting.idx.toNat < 9 ∧
      (baseList emitting.cw emitting.opl).map (fun base => (base.length, base[emitting.idx.toNat]?)) = some (8, some 0x0F)) ∧
    (emittingLast.phase = .emit ∧ emittingLast.idx.toNat < 9 ∧
      (baseList emittingLast.cw emittingLast.opl).map List.length = some emittingLast.idx.toNat) ∧
    (emittingOriginal.phase = .emit ∧ ck .orig = false ∧
      (baseList emittingOriginal.cw emittingOriginal.opl).map (fun base => (base.length - 1, base[emittingOriginal.idx.toNat]?)) =
        some (emittingOriginal.idx.toNat, some 0x33)) := by decide
/-- `rx` as the first byte, as the header byte of the Original, and with `CNT` at 13, 14 and 15. -/
theorem test_witness_ReceiveStep :
    (receiving.phase = .recv ∧ variantOfVsel (vselOf receiving.cw) = some .b8 ∧ receiving.cnt.toNat = hidx .b8) ∧
    (variantOfVsel (vselOf 0x03) = some .orig ∧ ({ receiving with cw := 0x03, cnt := 1 } : State).cnt.toNat = hidx .orig) ∧
    ({ receivedFourteen with cnt := 13 } : State).cnt.toNat < 14 ∧ receivedFourteen.cnt.toNat = 14 ∧
    ({ receivedFourteen with cnt := 15 } : State).cnt.toNat = 15 := by decide
/-- `rx_end` at each of its four verdicts, and for both operations. -/
theorem test_witness_ReceiveEndStep :
    rxVerdict .b8 { receivedFourteen with cnt := 13 } = rejectedLen ∧ rxVerdict .b8 { receivedFourteen with cnt := 15 } = rejectedLen ∧
    rxVerdict .b8 { receivedFourteen with hok := false } = rejectedHead ∧ rxVerdict .b8 receivedFourteen = rejectedCsum 0x8D 0x81 ∧
    rxVerdict .b8 { receivedFourteen with acc := 0x81 } = accepted ∧ receivedFourteen.phase = .recv ∧
    operationOfOpc (opcOf 0x0B) = some .valid ∧ operationOfOpc (opcOf 0x0C) = some .parse := by decide
theorem test_witness_ResetStep :
    ((offered [.reset]).held = [] ∧ (offered [.reset]).inbox = [.reset]) ∧
    (emitting.phase ≠ .idle ∧ ({ emitting with held := [.serial 0 opOn], inbox := [.reset] } : State).inbox = [.reset]) := by decide
theorem test_witness_CommandWaits :
    (emitting.phase ≠ .idle ∧ ({ emitting with inbox := [.command (.serial 0 opOn)] } : State).inbox = [.command (.serial 0 opOn)]) ∧
    ({ State.reset with held := [.serial 0 opOn, .serial 1 opOn] } : State).held = .serial 0 opOn :: [.serial 1 opOn] := by decide
/-- Ends of a run with nothing, a spare slot and a `reset` still offered; no end with a command still to come behind one. -/
theorem test_witness_EndOfRun :
    (EndOfRun State.reset ∧ State.reset.inbox = []) ∧
    (EndOfRun (offered [.tx]) ∧ ∃ t, step (offered [.tx]) = .next t) ∧
    (EndOfRun (offered [.reset]) ∧ ∃ t, step (offered [.reset]) = .next t) ∧
    ¬ EndOfRun (offered [.tx, .command (.serial 0x08 opOn)]) ∧ (receiving.phase = .recv ∧ receiving.inbox = []) :=
  ⟨⟨⟨rfl, rfl, by simp [State.reset]⟩, rfl⟩, ⟨⟨rfl, rfl, by simp [offered]⟩, _, rfl⟩,
    ⟨⟨rfl, rfl, by simp [offered]⟩, _, rfl⟩, fun h => h.2.2 (.serial 0x08 opOn) (by simp [offered]), rfl, rfl⟩

/-- A state of the EMIT phase in step with its transaction. -/
theorem test_emitting_sound : Sound emitting := by
  refine ⟨by decide, fun _ => ⟨.b9, [0x31, 0xBC, 0xC1, 0xFF, 0x00, 0x00, 0xF0, 0x0F], 7, ?_⟩, fun h => absurd h (by decide)⟩
  exact ⟨by decide, by decide, by decide, by decide, by decide, by decide⟩
/-- The same with only the checksum byte still to come. -/
theorem test_emittingLast_sound : Sound emittingLast := by
  refine ⟨by decide, fun _ => ⟨.b9, [0x31, 0xBC, 0xC1, 0xFF, 0x00, 0x00, 0xF0, 0x0F], 8, ?_⟩, fun h => absurd h (by decide)⟩
  exact ⟨by decide, by decide, by decide, by decide, by decide, by decide⟩
/-- A state of the RECV phase in step with its transaction. -/
theorem test_receivedFourteen_sound : Sound receivedFourteen := by
  refine ⟨by decide, fun h => absurd h (by decide), fun _ => ⟨.b8, List.replicate 14 0x81, ?_⟩⟩
  exact ⟨by decide, .inl (by decide), by decide, by decide, by decide, by decide, by decide⟩
theorem test_witness_StepKeepsSound :
    Sound emitting ∧ (∃ t, step emitting = .next t) ∧ emitting.phase = .emit ∧ emitting.inbox = [] :=
  ⟨test_emitting_sound, ⟨_, rfl⟩, rfl, rfl⟩
theorem test_witness_StepKeepsSound_receiving :
    Sound { receivedFourteen with inbox := [.rxEnd] } ∧ ∃ t, step { receivedFourteen with inbox := [.rxEnd] } = .next t :=
  ⟨test_receivedFourteen_sound, ⟨_, rfl⟩⟩
theorem test_witness_ResultsWf : Sound emittingOriginal ∧ ResultsWf emittingOriginal ∧ ∃ t, step emittingOriginal = .next t := by
  refine ⟨⟨by decide, fun _ => ⟨.orig, [0xCC, 0x23, 0x33], 2, ?_⟩, fun h => absurd h (by decide)⟩, ?_, ⟨_, rfl⟩⟩
  · exact ⟨by decide, by decide, by decide, by decide, by decide, by decide⟩
  · exact ⟨fun r h => (List.not_mem_nil h).elim, fun r h => (Option.some_ne_none r h.symm).elim⟩
theorem test_witness_HostError : HostError (offered [.rx 0x81]) ∧ ¬ HostError emitting :=
  ⟨⟨by decide, .inl rfl, .inl ⟨0x81, [], rfl⟩⟩, fun h => by
    rcases h.2.2 with ⟨_, _, h⟩ | ⟨_, h⟩ <;> cases h⟩
/-- An EMIT phase with none, with all base bytes and with the whole frame emitted. -/
theorem test_witness_EmitPhase :
    decode 0x08 = .ok .query8 ∧ baseList 0x08 opOn = some [0x81, 0x8A, 0x8B] ∧
    (offered [.command (.serial 0x08 opOn)]).inbox = .command (.serial 0x08 opOn) :: (List.replicate 0 .tx ++ []) ∧
    (offered [.command (.serial 0x08 opOn), .tx, .tx, .tx]).inbox =
      .command (.serial 0x08 opOn) :: (List.replicate ([0x81, 0x8A, 0x8B] : List Byte).length .tx ++ []) ∧
    (offered [.command (.serial 0x08 opOn), .tx, .tx, .tx, .tx]).inbox =
      .command (.serial 0x08 opOn) :: (List.replicate (frameOf .b8 [0x81, 0x8A, 0x8B]).length .tx ++ []) := by decide
theorem test_witness_ReceivePhase :
    (decode 0x0B = .ok .valid8 ∧ Instr.operation .valid8 = .valid ∧
      (offered [.command (.serial 0x0B opOn), .rx 0x81]).inbox = .command (.serial 0x0B opOn) :: ([0x81].map Event.rx ++ [])) ∧
    (response14 0x9D).length = rlen (Instr.variant .valid8) := by decide
theorem test_witness_ReceivePhase_ends :
    receiving.phase = .recv ∧ ∃ t, step { receiving with inbox := [.rxEnd] } = .next t ∧ t.phase ≠ .recv :=
  ⟨rfl, _, rfl, by decide⟩
/-- A constructor, a response operation, a constant and a reserved word, each a whole transaction of level S. -/
theorem test_witness_SerialRuns :
    serialEvents 0x00 opOn [] = [.command (.serial 0x00 opOn), .tx, .tx, .tx] ∧
    serialEvents 0x0C opOn [0x81] = [.command (.serial 0x0C opOn), .rx 0x81, .rxEnd] ∧
    serialEvents 0x05 opOn [0x81] = [.command (.serial 0x05 opOn)] ∧
    serialEvents 0x1F opOn [0x81] = [.command (.serial 0x1F opOn)] ∧
    (offered (serialEvents 0x0C opOn [0x81])).phase = .idle ∧ (offered (serialEvents 0x0C opOn [0x81])).held = [] := by decide
theorem test_witness_TwoHistories :
    ({ emitting with phase := .idle, inbox := serialEvents 0x0C opOn [0x81] } : State).inbox =
      (offered (serialEvents 0x0C opOn [0x81])).inbox ∧
    ({ emitting with phase := .idle } : State).phase = .idle ∧ emitting.held = [] ∧ emitting.acc ≠ (offered []).acc := by decide
/-- Sound states in EMIT before a base byte and before the checksum byte; a held command and an offer that is no slot. -/
theorem test_witness_EachFrameIndexWrittenOnce :
    (Sound emitting ∧ emitting.phase = .emit ∧ emitting.inbox = [] ∧ ∃ t, step emitting = .next t) ∧
    (Sound emittingLast ∧ emittingLast.phase = .emit ∧ ∃ t, step emittingLast = .next t) ∧
    (Sound { emitting with inbox := [.reset] } ∧ Event.reset ≠ .tx ∧ ∃ t, step { emitting with inbox := [.reset] } = .next t) :=
  ⟨⟨test_emitting_sound, rfl, rfl, _, rfl⟩, ⟨test_emittingLast_sound, rfl, _, rfl⟩, test_emitting_sound, by decide, _, rfl⟩
theorem test_witness_EmitPhaseEnds :
    Sound { emitting with held := [.serial 0x08 opOn] } ∧ emitting.phase = .emit ∧ emitting.inbox = [] ∧
    variantOfVsel (vselOf emitting.cw) = some .b9 ∧
    baseList emitting.cw emitting.opl = some [0x31, 0xBC, 0xC1, 0xFF, 0x00, 0x00, 0xF0, 0x0F] :=
  ⟨test_emitting_sound, by decide, by decide, by decide, by decide⟩
theorem test_witness_ResetLeavesPorts :
    (∃ t, step (offered [.reset]) = .next t) ∧
    ∃ t, step { emitting with held := [.serial 0 opOn], inbox := [.reset] } = .next t := ⟨⟨_, rfl⟩, ⟨_, rfl⟩⟩
/-- Literals at 255 and 256, each mode, a bare word at 31 and 32. -/
theorem test_witness_AssembledLines :
    (∀ n ∈ [0, 255], n < 256) ∧ (∃ n ∈ [0, 256], 256 ≤ n) ∧
    ((0xF0 : Nat) = (match ModeOperand.code .colors with
      | .code .all => 0x00
      | .code .colors => 0xF0
      | .code .whites => 0x0F
      | .literal n => n)) ∧
    ((256 : Nat) = (match ModeOperand.literal 256 with
      | .code .all => 0x00
      | .code .colors => 0xF0
      | .code .whites => 0x0F
      | .literal n => n)) := by decide
theorem test_line_modes :
    (assemble (.levels8 true 0 0 0 255 (.code .whites)) .zero [] =
      some (.whole 0x0A { Operands.zero with persist := true, warmWhite := 0xFF, mode := 0x0F } [])) ∧
    (assemble (.levels9 false 1 2 3 4 5 (.code .colors)) .zero [] =
      some (.whole 0x12 { Operands.zero with red := 1, green := 2, blue := 3, warmWhite := 4, coolWhite := 5, mode := 0xF0 } [])) ∧
    assemble (.parse .b8 [0x81, 255]) opOn [7] = some (.whole 0x0C opOn [0x81, 0xFF]) := by decide
theorem test_witness_ResetAbandons :
    ({ emitting with inbox := .reset :: serialEvents 0x00 opOn [] } : State).held = [] ∧ emitting.phase = .emit := by decide
theorem test_witness_PortsAreLatched :
    emitting.phase ≠ .idle ∧ (∀ c es, emitting.inbox ≠ .command c :: es) ∧ ∃ t, step emitting = .next t :=
  ⟨by decide, fun _ _ h => (by cases h), ⟨_, rfl⟩⟩
theorem test_witness_FrameWrite : 8 < 9 ∧ 9 ≤ 9 ∧ frameRead [(8, 0x50)] 8 = some 0x50 := by decide

end Sys2Proof.Tests
end

section
/-! Proofs of the encoding family (spec/30_encoding.md): the lengths of constructed frames (R55) and the pseudo-instructions
(R71). -/

namespace Sys2Proof.Machine

/-- The length table of R55 counts the base bytes of R134, whatever the operands hold. -/
theorem baseList_map_length (i : Instr) (op : Operands) :
    (baseList (encode i) op).map List.length = baseLength i.variant i.operation := by
  cases i <;> rfl

/-- A constructor delivers the frame of as many base bytes as R55 gives it, and leaves that frame in FRAME. -/
theorem exec_of_baseLength {i : Instr} {n : Nat} (s : State) (h : baseLength i.variant i.operation = some n) :
    ∃ base, base.length = n ∧
      exec i s = .next (answered s (cellsFrom 0 (frameOf i.variant base)) (.frame (frameOf i.variant base))) := by
  rw [← baseList_map_length i s.op] at h
  obtain ⟨base, hbase, hlen⟩ := Option.map_eq_some_iff.1 h
  exact ⟨base, hlen, exec_constructor hbase⟩

/-- The framing rule as a suffix: the checksum behind the base bytes, or nothing (R85). -/
theorem frameOf_eq_append (v : Variant) (base : List Byte) :
    frameOf v base = base ++ if ck v then [csum base] else [] := by
  cases hck : ck v <;> simp [frameOf, hck]

/-- Settles O23: each row of the table is R55's base length and checksum flag of its instruction, and a frame is as long as its
base bytes and its checksum byte. -/
theorem constructedFrameLengths : Obligations.ConstructedFrameLengths := by
  intro s i n total sum hrow
  have row_agrees : baseLength i.variant i.operation = some n ∧ ck i.variant = sum ∧
      n + (if sum then 1 else 0) = total := by
    simp only [List.mem_cons, Prod.mk.injEq, List.not_mem_nil, or_false] at hrow
    rcases hrow with h | h | h | h | h | h | h | h | h <;> obtain ⟨rfl, rfl, rfl, rfl⟩ := h <;> decide
  obtain ⟨hn, hsum, htotal⟩ := row_agrees
  obtain ⟨base, hlen, hexec⟩ := exec_of_baseLength s hn
  refine ⟨base, frameOf i.variant base, hlen, ?_, ?_, hexec⟩
  · rw [frameOf_eq_append, hsum]
  · rw [frameOf_length, hlen, hsum, htotal]

/-- A line presents what the line it expands to presents (R71). -/
theorem assemble_expand (a : Asm) (port : Operands) (resp : List Byte) :
    assemble (expand a) port resp = assemble a port resp := by
  cases a <;> rfl

/-- The lines that expand to another line are the two pseudo-instructions (R71). -/
theorem expand_ne_self_iff (a : Asm) : expand a ≠ a ↔ ∃ v, a = .on v ∨ a = .off v := by
  cases a <;> simp [expand]

/-- Settles O32: expansion keeps what a line presents, and only `ON` and `OFF` expand. -/
theorem pseudoInstructionsExpand : Obligations.PseudoInstructionsExpand := fun v port resp =>
  ⟨(assemble_expand (.on v) port resp).symm, (assemble_expand (.off v) port resp).symm, rfl, rfl,
    fun a => (expand_ne_self_iff a).1⟩

end Sys2Proof.Machine
end

section
/-! Proofs of the interface and checksum family (spec/40_interface_and_checksum.md): the constants (R83, R86), the checksum
generator and the framing rule (R84, R85), and the properties of R92 to R95. -/

namespace Sys2Proof.Machine

/-! The constants, the checksum generator and the framing rule. -/

/-- Settles O27: every constant is read off the table of its definition. -/
theorem operandBytesAndConstants : Obligations.OperandBytesAndConstants := by
  unfold Obligations.OperandBytesAndConstants
  decide

/-- The checksum with the reduction modulo 256 written out, as the rules of the spec write it. -/
theorem csum_eq_ofNat_mod (s : List Byte) : csum s = BitVec.ofNat 8 ((s.map BitVec.toNat).sum % 256) := by
  apply BitVec.eq_of_toNat_eq
  rw [csum_toNat, BitVec.toNat_ofNat, Nat.mod_mod]

/-- An accumulator that started at `acc` ends `csum s` further on (R84). -/
theorem foldl_add_eq_add_csum (s : List Byte) (acc : Byte) : s.foldl (· + ·) acc = acc + csum s := by
  induction s generalizing acc with
  | nil => simp
  | cons b s ih => rw [List.foldl_cons, ih, csum_cons, BitVec.add_assoc]

/-- Settles O20: the recurrence is `csum_snoc`, and the fold over a whole sequence is the accumulator's law at 0. -/
theorem checksumGenerator : Obligations.ChecksumGenerator := by
  refine ⟨csum_toNat, csum_nil, fun s b => ⟨csum_snoc s b, ?_⟩⟩
  simpa using foldl_add_eq_add_csum s 0

/-- Framing in a checksummed variant (R85). -/
theorem frameOf_of_ck {v : Variant} (hck : ck v = true) (base : List Byte) : frameOf v base = base ++ [csum base] := by
  rw [frameOf_eq_append, if_pos hck]

/-- Settles O22: the two checksummed variants are one case of `frameOf_of_ck`, and the lengths are `frameOf_length`. -/
theorem messageFraming : Obligations.MessageFraming := by
  intro s
  rw [← csum_eq_ofNat_mod]
  exact ⟨rfl, frameOf_of_ck rfl s, frameOf_of_ck rfl s, fun v => frameOf_length v s⟩

/-! The checksum property (R92). -/

/-- A frame of a checksummed variant ends in the checksum of the bytes before its last. -/
theorem getLast?_frameOf {v : Variant} (hck : ck v = true) (base : List Byte) :
    (frameOf v base).getLast? = some (csum (frameOf v base).dropLast) := by
  rw [frameOf_of_ck hck, List.getLast?_concat, List.dropLast_concat]

/-- Settles O17: a constructor delivers the frame of its base bytes, which in a checksummed variant ends in their checksum; the
Original's query ends in 0x77 where the sum before it is 0xF0. -/
theorem checksumProperty : Obligations.ChecksumProperty := by
  constructor
  · intro i s hvariant hop
    have hck : ck i.variant = true := by rcases hvariant with h | h <;> rw [h] <;> rfl
    obtain ⟨base, hbase⟩ := (baseList_isSome_iff i s.op).2 hop
    refine ⟨frameOf i.variant base, ?_, exec_constructor hbase, ?_⟩
    · simp [frameOf_of_ck hck]
    · rw [getLast?_frameOf hck, csum_eq_ofNat_mod]
  · exact fun s => ⟨[0xEF, 0x01, 0x77], exec_constructor (i := .queryO) rfl, by decide⟩

/-! The round trip of responses (R93). -/

/-- `VALIDATE` accepts a response of the right length and header whose last byte is the checksum, if the variant has one. -/
theorem validate_eq_accepted {v : Variant} {resp : List Byte} {a : Byte} (hlen : resp.length = rlen v)
    (hhead : resp[hidx v]? = some (hval v)) (hlast : resp[rlen v - 1]? = some a)
    (hsum : ck v = true → csum (resp.take (rlen v - 1)) = a) : validate v resp = some accepted := by
  rw [validate_body hlen hhead hlast, if_neg fun ⟨hck, hne⟩ => hne (hsum hck)]

/-- `PARSE` of an accepted response in a variant with 14-byte responses gives an extended record. -/
theorem exec_parse_ext {v : Variant} {s : State} (hv : v ≠ .orig) (h : validate v s.resp = some accepted) :
    ∃ record : NamedExt, exec (Instr.ofParts v .parse) s = .next (answered s s.frame (.named (.ext record))) ∧
      namedLanes (.ext record) = s.resp := by
  obtain ⟨record, hexec, hlanes, -, horig⟩ := exec_parse_ok h
  cases record with
  | orig r => exact absurd (horig.2 ⟨r, rfl⟩) hv
  | ext r => exact ⟨r, hexec, hlanes⟩

/-- `PARSE.O` of an accepted response gives an Original record. -/
theorem exec_parse_orig {s : State} (h : validate .orig s.resp = some accepted) :
    ∃ record : NamedOrig, exec .parseO s = .next (answered s s.frame (.named (.orig record))) ∧
      namedLanes (.orig record) = s.resp := by
  obtain ⟨record, hexec, hlanes, -, horig⟩ := exec_parse_ok h
  obtain ⟨r, rfl⟩ := horig.1 rfl
  exact ⟨r, hexec, hlanes⟩

theorem rlen_eq_ite (v : Variant) : rlen v = if v = .orig then 11 else 14 := by cases v <;> rfl

/-- Settles O18: both kinds of response pass every test of `VALIDATE`, so that `VALID` answers ok and `PARSE` a record with their
bytes as lanes; a response of another length fails the first test. -/
theorem roundTrip : Obligations.RoundTrip := by
  refine ⟨fun s v hv hlen hhead hlast => ?_, fun s hlen hhead => ?_, fun s v => ⟨?_, fun hlen => ?_⟩⟩
  · have haccepted : validate v s.resp = some accepted := by
      rw [← csum_eq_ofNat_mod] at hlast
      rcases hv with rfl | rfl <;> exact validate_eq_accepted hlen hhead hlast fun _ => rfl
    have hext : v ≠ .orig := by rcases hv with rfl | rfl <;> decide
    exact ⟨exec_valid haccepted, exec_parse_ext hext haccepted⟩
  · have hlast : s.resp[10]? = some s.resp[10] := List.getElem?_eq_getElem _
    have haccepted : validate .orig s.resp = some accepted := validate_eq_accepted hlen hhead hlast nofun
    exact ⟨exec_valid (v := .orig) haccepted, exec_parse_orig haccepted⟩
  · rw [exec_rlen]
    cases v <;> rfl
  · rw [← rlen_eq_ite] at hlen
    exact ⟨.len, exec_valid (validate_len hlen)⟩

/-! Influence of the operands on the result (R94). -/

/-- Two answers agree exactly when they deliver the same result, whatever states they come from. -/
@[simp] theorem sameResult_answered (s t : State) (m n : Memory) (r q : Result) :
    SameResult (.next (answered s m r)) (.next (answered t n q)) ↔ r = q := by
  simp [SameResult]

/-- The base bytes of a constructor are a function of the operands that R53 marks as read. -/
theorem baseList_congr {i : Instr} {s t : State} (h : SameReadOperands i s t) :
    baseList (encode i) s.op = baseList (encode i) t.op := by
  cases i
  case stchgO | stchg8 | stchg9 | levelsO | levels8 | levels9 =>
    simp only [SameReadOperands] at h
    simp [baseList, encode, Instr.variant, Instr.operation, vselOfVariant, opcOfOperation, h]
  all_goals rfl

/-- `VALID` and `PARSE` read the response (R53). -/
theorem resp_eq_of_sameReadOperands {v : Variant} {o : Operation} {s t : State} (ho : o = .valid ∨ o = .parse)
    (h : SameReadOperands (Instr.ofParts v o) s t) : s.resp = t.resp := by
  rcases ho with rfl | rfl <;> cases v <;> exact h

/-- A record is determined by its byte lanes. -/
theorem namedLanes_injective : Function.Injective namedLanes := by
  intro a b h
  match a, b with
  | .orig r, .orig q => cases r; cases q; simpa [namedLanes] using h
  | .ext r, .ext q => cases r; cases q; simpa [namedLanes] using h
  | .orig r, .ext q => simp [namedLanes] at h
  | .ext r, .orig q => simp [namedLanes] at h

theorem sameResult_constructor {i : Instr} {s t : State}
    (ho : i.operation = .query ∨ i.operation = .stchg ∨ i.operation = .levels) (h : SameReadOperands i s t) :
    SameResult (exec i s) (exec i t) := by
  obtain ⟨base, hs⟩ := (baseList_isSome_iff i s.op).2 ho
  have ht : baseList (encode i) t.op = some base := baseList_congr h ▸ hs
  rw [exec_constructor hs, exec_constructor ht, sameResult_answered]

theorem sameResult_valid (v : Variant) {s t : State} (h : s.resp = t.resp) :
    SameResult (exec (Instr.ofParts v .valid) s) (exec (Instr.ofParts v .valid) t) := by
  obtain ⟨w, hs⟩ := validate_isSome v s.resp
  rw [exec_valid hs, exec_valid (h ▸ hs), sameResult_answered]

theorem sameResult_parse (v : Variant) {s t : State} (h : s.resp = t.resp) :
    SameResult (exec (Instr.ofParts v .parse) s) (exec (Instr.ofParts v .parse) t) := by
  obtain ⟨w, hs⟩ := validate_isSome v s.resp
  have ht : validate v t.resp = some w := h ▸ hs
  cases hok : w.ok with
  | false => rw [exec_parse_error hs hok, exec_parse_error ht hok, sameResult_answered]
  | true =>
    obtain rfl : w = accepted := by
      rcases validate_cases hs with ⟨rfl, -⟩ | rfl | rfl | ⟨_, _, rfl, -⟩
      · rfl
      all_goals cases hok
    obtain ⟨a, hexec_s, hlanes_s, -⟩ := exec_parse_ok hs
    obtain ⟨b, hexec_t, hlanes_t, -⟩ := exec_parse_ok ht
    have hab : a = b := namedLanes_injective (by rw [hlanes_s, hlanes_t, h])
    rw [hexec_s, hexec_t, sameResult_answered, hab]

/-- Settles O16, by the kind of operation: a constructor's result is the frame of its base bytes, that of `VALID` and `PARSE` is
a function of the response, and `RLEN` and `NAME` are constants. -/
theorem ignoredOperandsHaveNoInfluence : Obligations.IgnoredOperandsHaveNoInfluence := by
  intro i s t h
  rw [← ofParts_self i] at h ⊢
  generalize i.variant = v at h ⊢
  cases ho : i.operation <;> rw [ho] at h
  case valid => exact sameResult_valid v (resp_eq_of_sameReadOperands (.inl rfl) h)
  case parse => exact sameResult_parse v (resp_eq_of_sameReadOperands (.inr rfl) h)
  case rlen => rw [exec_rlen, exec_rlen, sameResult_answered]
  case name => rw [exec_name, exec_name, sameResult_answered]
  all_goals exact sameResult_constructor (by simp) h

/-! What the 9-Byte variant inherits (R95). -/

theorem construct_b9 (base : List Byte) (s : State) : construct .b9 base s = construct .b8 base s := rfl

theorem validate_b9 (resp : List Byte) : validate .b9 resp = validate .b8 resp := rfl

theorem checkResponse_b9 (s : State) : checkResponse .b9 s = checkResponse .b8 s := by
  simp only [checkResponse, validate_b9]

theorem parseResponse_b9 (s : State) : parseResponse .b9 s = parseResponse .b8 s := by
  simp only [parseResponse, validate_b9, recordOf]

/-- Settles O19: framing, validation and the record of B9 are those of B8, but its `LEVELS` frame is one byte longer and its tag
is its own. -/
theorem nineByteInheritsEightByte : Obligations.NineByteInheritsEightByte := by
  refine fun s => ⟨construct_b9 [0x81, 0x8A, 0x8B] s, construct_b9 [0x71, onOff s.op.turnOn, 0x0F] s,
    checkResponse_b9 s, parseResponse_b9 s, rfl, ?_, ?_⟩
  · rw [exec_constructor (i := .levels9) rfl, exec_constructor (i := .levels8) rfl, sameResult_answered]
    intro hframes
    have hlengths := congrArg List.length (Result.frame.inj hframes)
    simp [frameOf_length, Instr.variant, ck] at hlengths
  · rw [show exec .name9 s = _ from exec_name .b9 s, show exec .name8 s = _ from exec_name .b8 s, sameResult_answered]
    decide

end Sys2Proof.Machine
end

section
/-! Proofs of the Original variant's family (spec/41_original.md, with the same rules of spec/42_8byte.md and
spec/43_9byte.md): the frames of `QUERY`, `STCHG` and `LEVELS.O` (R100 to R102, R110, R111, R120, R121), the verdict of
`VALID.O` (R103) and the constants of `RLEN` and `NAME` (R105, R106, R117, R118, R127, R128). -/

namespace Sys2Proof.Machine

/-! The constructors. -/

/-- Settles O1: in each variant `QUERY` is a constructor whose base bytes are constants. -/
theorem queryBuildsConstantFrame : Obligations.QueryBuildsConstantFrame :=
  ⟨decode_encode .queryO, decode_encode .query8, decode_encode .query9, fun s =>
    ⟨exec_constructor (i := .queryO) (s := s) rfl, exec_constructor (i := .query8) (s := s) rfl,
      exec_constructor (i := .query9) (s := s) rfl⟩⟩

/-- The base bytes of `STCHG` in a variant, for one value of `turn_on` (R101, R111, R121). -/
def stchgBase (v : Variant) (on : Bool) : List Byte :=
  if ck v then [0x71, onOff on, 0x0F] else [0xCC, onOff on, 0x33]

theorem baseList_stchg (v : Variant) (op : Operands) :
    baseList (encode (Instr.ofParts v .stchg)) op = some (stchgBase v op.turnOn) := by
  cases v <;> rfl

/-- The frame of `STCHG` is a function of its variant and of `turn_on`. -/
theorem exec_stchg (v : Variant) {s : State} {on : Bool} (hon : s.op.turnOn = on) :
    exec (Instr.ofParts v .stchg) s =
      .next (answered s (cellsFrom 0 (frameOf v (stchgBase v on))) (.frame (frameOf v (stchgBase v on)))) := by
  rw [exec_constructor (baseList_stchg v s.op), ofParts_variant, hon]

/-- Settles O2: the two values of `turn_on` give the two frames of each variant. -/
theorem stateChangeBuildsOnOffFrame : Obligations.StateChangeBuildsOnOffFrame :=
  ⟨decode_encode .stchgO, decode_encode .stchg8, decode_encode .stchg9, fun _ =>
    ⟨fun hon => ⟨exec_stchg .orig hon, exec_stchg .b8 hon, exec_stchg .b9 hon⟩,
      fun hoff => ⟨exec_stchg .orig hoff, exec_stchg .b8 hoff, exec_stchg .b9 hoff⟩⟩⟩

/-- Settles O3: the base bytes of `LEVELS.O` are its whole frame, for the Original has no checksum. -/
theorem levelsOriginalBuildsRgbFrame : Obligations.LevelsOriginalBuildsRgbFrame :=
  ⟨decode_encode .levelsO, fun s => exec_constructor (i := .levelsO) (s := s) rfl⟩

/-! The verdict of `VALID.O`. -/

/-- The Original accepts on length and header alone: it has no checksum (R103). -/
theorem validate_orig_accepted {resp : List Byte} (hlen : resp.length = 11) (hhead : resp[1]? = some 0x01) :
    validate .orig resp = some accepted := by
  have hlast : resp[10]? = some resp[10] := List.getElem?_eq_getElem _
  exact validate_eq_accepted hlen hhead hlast nofun

/-- Settles O6: `VALID.O` delivers the verdict of `VALIDATE`, whose three cases are a wrong length, a wrong header byte, and
acceptance. -/
theorem validOriginalVerdict : Obligations.ValidOriginalVerdict :=
  ⟨decode_encode .validO, fun _ =>
    ⟨fun hlen => exec_valid (v := .orig) (validate_len hlen),
      fun hlen hhead => exec_valid (v := .orig) (validate_head hlen hhead),
      fun hlen hhead => exec_valid (v := .orig) (validate_orig_accepted hlen hhead)⟩⟩

/-! The constants. -/

/-- Settles O12: `RLEN` delivers the response length of its variant. -/
theorem responseLengthConstants : Obligations.ResponseLengthConstants :=
  ⟨decode_encode .rlenO, decode_encode .rlen8, decode_encode .rlen9, fun s =>
    ⟨exec_rlen .orig s, exec_rlen .b8 s, exec_rlen .b9 s⟩⟩

/-- Settles O13: `NAME` delivers the tag of its variant. -/
theorem nameTags : Obligations.NameTags :=
  ⟨decode_encode .nameO, decode_encode .name8, decode_encode .name9, fun s =>
    ⟨exec_name .orig s, exec_name .b8 s, exec_name .b9 s⟩⟩

end Sys2Proof.Machine
end

section
/-! Proofs of the 8-Byte variant's family (spec/42_8byte.md, with R125 of spec/43_9byte.md): the frame of `LEVELS.8` (R113) and
the verdict of `VALID.8` and `VALID.9` (R115, R125). -/

namespace Sys2Proof.Machine

/-! The constructors of a checksummed variant. -/

/-- A constructor of a checksummed variant answers with its base bytes and, behind them, the byte that is their sum modulo 256. -/
theorem exec_constructor_of_ck {i : Instr} {s : State} {base : List Byte} {c : Byte} (hck : ck i.variant = true)
    (hbase : baseList (encode i) s.op = some base) (hc : c = BitVec.ofNat 8 ((base.map BitVec.toNat).sum % 256)) :
    exec i s = .next (answered s (cellsFrom 0 (base ++ [c])) (.frame (base ++ [c]))) := by
  rw [exec_constructor hbase, frameOf_of_ck hck, csum_eq_ofNat_mod, hc]

/-- The base bytes of `LEVELS.8` (R113). -/
theorem baseList_levels8 (op : Operands) :
    baseList (encode .levels8) op =
      some [persistByte op.persist, op.red, op.green, op.blue, op.warmWhite, op.mode, 0x0F] := rfl

/-- Settles O4: `LEVELS.8` is a constructor of a checksummed variant, and the sum of its seven base bytes is the one the statement
writes out. -/
theorem levelsEightBuildsFrame : Obligations.LevelsEightBuildsFrame := by
  refine ⟨decode_encode .levels8, fun s p c hp hc => ?_⟩
  have hpersist : persistByte s.op.persist = p := hp.symm
  have hbase := baseList_levels8 s.op
  rw [hpersist] at hbase
  exact exec_constructor_of_ck rfl hbase (by simpa [Nat.add_assoc] using hc)

/-! The verdict of a checksummed variant. -/

/-- `VALIDATE` on a response of a checksummed variant whose length and header are right: the byte the block computed and the byte
it received decide. -/
theorem validate_body_of_ck {v : Variant} {resp : List Byte} {e a : Byte} (hck : ck v = true) (hlen : resp.length = rlen v)
    (hhead : resp[hidx v]? = some (hval v)) (he : e = csum (resp.take (rlen v - 1))) (ha : resp[rlen v - 1]? = some a) :
    validate v resp = some (if e = a then accepted else rejectedCsum e a) := by
  rw [validate_body hlen hhead ha, ← he]
  by_cases hea : e = a <;> simp [hck, hea]

/-- Settles O7: both instructions deliver the verdict of `VALIDATE` in a variant whose constants are 14, 0 and 0x81, and its cases
are a wrong length, a wrong header byte, and the comparison of the checksum with the last byte. -/
theorem validCheckedVerdict : Obligations.ValidCheckedVerdict := by
  refine ⟨decode_encode .valid8, decode_encode .valid9, fun s i hi => ?_⟩
  obtain ⟨v, rfl, hck, hrlen, hhidx, hhval⟩ :
      ∃ v, i = Instr.ofParts v .valid ∧ ck v = true ∧ rlen v = 14 ∧ hidx v = 0 ∧ hval v = 0x81 := by
    rcases hi with rfl | rfl
    · exact ⟨.b8, rfl, rfl, rfl, rfl, rfl⟩
    · exact ⟨.b9, rfl, rfl, rfl, rfl, rfl⟩
  rw [← hrlen, ← hhidx, ← hhval]
  refine ⟨fun hlen => exec_valid (validate_len hlen), fun hlen hhead => exec_valid (validate_head hlen hhead),
    fun e a hlen hhead he ha => ?_⟩
  rw [← csum_eq_ofNat_mod] at he
  have hbody : validate v s.resp = some (if e = a then accepted else rejectedCsum e a) :=
    validate_body_of_ck hck hlen hhead (by rw [he, hrlen]) (by rw [hrlen, ha])
  constructor
  · intro hne
    exact exec_valid (by rw [hbody, if_neg hne]; rfl)
  · intro heq
    exact exec_valid (by rw [hbody, if_pos heq]; rfl)

end Sys2Proof.Machine
end

section
/-! Proofs of the 9-Byte variant's family (spec/43_9byte.md): the frame of `LEVELS.9` (R123). -/

namespace Sys2Proof.Machine

/-- The base bytes of `LEVELS.9` (R123): those of `LEVELS.8` with the cool white level before the mode. -/
theorem baseList_levels9 (op : Operands) :
    baseList (encode .levels9) op =
      some [persistByte op.persist, op.red, op.green, op.blue, op.warmWhite, op.coolWhite, op.mode, 0x0F] := rfl

/-- Settles O5: `LEVELS.9` is a constructor of a checksummed variant, and the sum of its eight base bytes is the one the statement
writes out. -/
theorem levelsNineBuildsFrame : Obligations.LevelsNineBuildsFrame := by
  refine ⟨decode_encode .levels9, fun s p c hp hc => ?_⟩
  obtain rfl : p = persistByte s.op.persist := hp
  exact exec_constructor_of_ck rfl (baseList_levels9 s.op) (by simpa [Nat.add_assoc] using hc)

end Sys2Proof.Machine
end

section
/-! Proofs of the byte-serial datapath's family (spec/44_serial_datapath.md): the labelled steps `cmd`, `rx`, `rx_end` and `reset`
(R133, R136, R137, R138), the invariants of the EMIT and RECV phases (R140, R141), and the refinement of level T by level S
(R150). -/

namespace Sys2Proof.Machine

/-! The step `cmd`. -/

/-- `cmd` of `RLEN` (R133). -/
theorem cmdStep_rlen {cw : CommandWord} {i : Instr} (op : Operands) (s : State) (h : decode cw = .ok i)
    (ho : i.operation = .rlen) :
    cmdStep cw op s = .next (answered s s.frame (.const (.length (BitVec.ofNat 8 (rlen i.variant))))) := by
  simp only [cmdStep, h, ho]; rfl

/-- `cmd` of `NAME` (R133). -/
theorem cmdStep_name {cw : CommandWord} {i : Instr} (op : Operands) (s : State) (h : decode cw = .ok i)
    (ho : i.operation = .name) : cmdStep cw op s = .next (answered s s.frame (.const (.tag (tag i.variant)))) := by
  simp only [cmdStep, h, ho]; rfl

/-- A level-S command offered to an idle block with none held is its `cmd` step, with the operands on the port. -/
theorem step_serial {s : State} {cw : CommandWord} {op : Operands} {es : List Event} (hi : s.phase = .idle) (hh : s.held = [])
    (h : s.inbox = .command (.serial cw op) :: es) : step s = cmdStep cw op { s with inbox := es, op := op } :=
  step_command hi hh h

/-- Settles O40: the step is `cmdStep`, which has one equation for each kind of operation. -/
theorem commandStep : Obligations.CommandStep := by
  intro s cw op es hi hh hin
  rw [step_serial hi hh hin]
  refine ⟨fun hres => cmdStep_reserved op _ ((decode_error_iff cw).2 hres), fun i hd => ?_⟩
  cases ho : i.operation
  case rlen => exact cmdStep_rlen op _ hd ho
  case name => exact cmdStep_name op _ hd ho
  case valid => exact ⟨_, cmdStep_response op _ hd (.inl ho), rfl⟩
  case parse => exact ⟨_, cmdStep_response op _ hd (.inr ho), rfl⟩
  all_goals exact ⟨_, cmdStep_constructor op _ hd (by simp [ho]), rfl⟩

/-! The step `rx`. -/

/-- The state after `rx(b)` in a variant (R136). -/
def rxNext (v : Variant) (b : Byte) (s : State) : State :=
  { s with
    acc := if 0 < s.cnt.toNat then s.acc + s.last else s.acc
    last := b
    hok := if s.cnt.toNat = hidx v then b == hval v else s.hok
    fbuf := if s.cnt.toNat < 14 then s.fbuf.setIfInBounds s.cnt.toNat b else s.fbuf
    cnt := BitVec.ofNat 4 (min (s.cnt.toNat + 1) 15)
    resPort := none }

theorem rxStep_eq {v : Variant} {s : State} (b : Byte) (hv : variantOfVsel (vselOf s.cw) = some v) :
    rxStep b s = .next (rxNext v b s) := by
  simp only [rxStep, hv]; rfl

/-- FBUF takes the byte at `CNT`, which is no index of it from 14 on. -/
theorem rxNext_fbuf_getElem (v : Variant) (b : Byte) (s : State) (k : Nat) (hk : k < 14) :
    (rxNext v b s).fbuf[k] = if k = s.cnt.toNat then b else s.fbuf[k] := by
  by_cases hc : s.cnt.toNat < 14
  · simp [rxNext, hc, Vector.getElem_setIfInBounds, eq_comm]
  · simp [rxNext, hc, show k ≠ s.cnt.toNat by omega]

/-- `CNT` counts up and saturates at 15. -/
theorem rxNext_cnt_toNat (v : Variant) (b : Byte) (s : State) : (rxNext v b s).cnt.toNat = min (s.cnt.toNat + 1) 15 :=
  (BitVec.toNat_ofNat _ _).trans (Nat.mod_eq_of_lt (by omega))

/-- Settles O43: the step is `rxNext`; FBUF and `CNT` are read off by their lemmas. -/
theorem receiveStep : Obligations.ReceiveStep := by
  intro s v b es hp hv hin
  refine ⟨rxNext v b { s with inbox := es }, ?_, rfl, rfl, rfl, fun k hk => rxNext_fbuf_getElem v b _ k hk,
    rxNext_cnt_toNat v b _, rfl⟩
  rw [step_rx hp hin]
  exact rxStep_eq b hv

/-! The step `rx_end`. -/

/-- A verdict of the registers is ok only where no test failed. -/
theorem rxVerdict_eq_accepted {v : Variant} {s : State} (h : (rxVerdict v s).ok = true) : rxVerdict v s = accepted := by
  rcases rxVerdict_cases v s with hw | hw | hw | hw
  · exact hw
  all_goals rw [hw] at h; cases h

/-- The record of the capture registers has them as lanes, as many as the variant's response is long. -/
theorem recordOf_fbuf {v : Variant} {s : State} {record : Named} (h : recordOf v (fun k => s.fbuf[k]?) = some record) :
    namedLanes record = s.fbuf.toList.take (rlen v) ∧ (v = .orig ↔ ∃ r, record = .orig r) := by
  have h14 : rlen v ≤ 14 := by cases v <;> decide
  obtain ⟨record', hr, hlanes, -, horig⟩ := recordOf_eq (v := v) (read := fun k => s.fbuf[k]?)
    (lanes := s.fbuf.toList.take (rlen v)) (by simp [h14]) (by intro k hk; simp [hk])
  obtain rfl : record = record' := Option.some.inj (h.symm.trans hr)
  exact ⟨hlanes, horig⟩

/-- Settles O44: the chain of tests is `rxVerdict`, and `rx_end` has one equation for `VALID` and one for each outcome of
`PARSE`. -/
theorem receiveEndStep : Obligations.ReceiveEndStep := by
  intro s v es w hp hv hin hw
  obtain rfl : w = rxVerdict v { s with inbox := es } := hw
  rw [step_rxEnd hp hin]
  refine ⟨fun ho => rxEndStep_valid hv ho, fun ho => ⟨fun hok => rxEndStep_parse_error hv ho hok, fun hok => ?_⟩⟩
  obtain ⟨record, hrec, hstep⟩ := rxEndStep_parse_ok (s := { s with inbox := es }) hv ho hok
  exact ⟨record, hstep, recordOf_fbuf hrec⟩

/-! The step `reset`. -/

/-- Settles O45: the step is the model's `resetStep` (whose name the obligation's would repeat), field by field. -/
theorem resetStep_spec : Obligations.ResetStep := fun s es hheld hin =>
  ⟨resetStep { s with inbox := es }, step_reset hheld hin, rfl, rfl, rfl, rfl, rfl, rfl, rfl, rfl, rfl, rfl, rfl⟩

/-! Runs. -/

/-- A run's last step, where `run_succ` has its first. -/
theorem run_snoc {n : Nat} {s t u : State} (h : Host.Core.run core n s = .next t) (hu : step t = .next u) :
    Host.Core.run core (n + 1) s = .next u := by
  induction n generalizing s with
  | zero =>
    obtain rfl : s = t := Host.Outcome.next.inj h
    exact run_succ 0 hu
  | succ n ih =>
    cases hs : step s with
    | next a =>
      rw [run_succ n hs] at h
      rw [run_succ (n + 1) hs]
      exact ih h
    | fault f => simp [Host.Core.run, show core.step s = .fault f from hs] at h
    | refused f => simp [Host.Core.run, show core.step s = .refused f from hs] at h

theorem run_one {s t : State} (h : step s = .next t) : Host.Core.run core 1 s = .next t := run_succ 0 h

/-! The labels of a run. -/

@[simp] theorem emittedBytes_append (a b : List Output) : emittedBytes (a ++ b) = emittedBytes a ++ emittedBytes b :=
  List.filterMap_append

@[simp] theorem resultsOf_append (a b : List Output) : resultsOf (a ++ b) = resultsOf a ++ resultsOf b :=
  List.filterMap_append

@[simp] theorem emittedBytes_nil : emittedBytes [] = [] := rfl
@[simp] theorem emittedBytes_tx (b : Byte) (last : Bool) (out : List Output) :
    emittedBytes (.tx b last :: out) = b :: emittedBytes out := rfl
@[simp] theorem emittedBytes_res (r : Result) (out : List Output) : emittedBytes (.res r :: out) = emittedBytes out := rfl
@[simp] theorem resultsOf_nil : resultsOf [] = [] := rfl
@[simp] theorem resultsOf_tx (b : Byte) (last : Bool) (out : List Output) :
    resultsOf (.tx b last :: out) = resultsOf out := rfl
@[simp] theorem resultsOf_res (r : Result) (out : List Output) : resultsOf (.res r :: out) = r :: resultsOf out := rfl

/-- `t` is what a transaction of level S that began in `s` leaves at its end: one result `r` handed out, `m` in FRAME, nothing
held, and `es` still to come from the host. -/
structure Completed (s : State) (es : List Event) (m : Memory) (r : Result) (t : State) : Prop where
  phase : t.phase = .idle
  held : t.held = []
  inbox : t.inbox = es
  frame : t.frame = m
  resPort : t.resPort = some r
  results : resultsOf t.outbox = resultsOf s.outbox ++ [r]

/-! The EMIT phase (R140). -/

/-- `t` is what the transaction of a constructor that began in `s` has come to with `k` bytes emitted and more to come. -/
structure Emitting (s : State) (v : Variant) (base : List Byte) (k : Nat) (es : List Event) (t : State) : Prop where
  emitted : Emitted v base k t
  phase : t.phase = .emit
  held : t.held = []
  inbox : t.inbox = es
  bytes : emittedBytes t.outbox = emittedBytes s.outbox ++ base.take k
  results : resultsOf t.outbox = resultsOf s.outbox

theorem take_succ_of_getElem? {bytes : List Byte} {k : Nat} {b : Byte} (h : bytes[k]? = some b) :
    bytes.take (k + 1) = bytes.take k ++ [b] := by
  rw [List.take_add_one, h, Option.toList_some]

/-- A frame begins with its base bytes. -/
theorem take_frameOf (v : Variant) {base : List Byte} {k : Nat} (hk : k ≤ base.length) :
    (frameOf v base).take k = base.take k := by
  rw [frameOf_eq_append, List.take_append_of_le_length hk]

theorem frameOf_length_bounds (v : Variant) (base : List Byte) :
    base.length ≤ (frameOf v base).length ∧ (frameOf v base).length ≤ base.length + 1 := by
  rw [frameOf_length]; split <;> omega

section EmitRun

variable {s t : State} {v : Variant} {cw : CommandWord} {op : Operands} {i : Instr} {base : List Byte} {k n : Nat}
  {es : List Event}

/-- A slot before the last byte emits one more base byte. -/
theorem Emitting.slot (h : Emitting s v base k (.tx :: es) t) (hk : k + 1 < (frameOf v base).length) :
    ∃ u, step t = .next u ∧ Emitting s v base (k + 1) es u := by
  have hE : Emitted v base k { t with inbox := es } := h.emitted
  obtain ⟨b, -, hb, htx⟩ := txStep_emitted hE hk
  refine ⟨_, (step_tx h.phase h.inbox).trans htx, hE.succ hk hb rfl rfl rfl rfl rfl, h.phase, h.held, rfl, ?_, ?_⟩
  · simp [h.bytes, take_succ_of_getElem? hb]
  · simp [h.results]

/-- The slot of the last byte ends the transaction: the whole frame has been emitted and is delivered. `IDX` has counted it, and
where it is a base byte `ACC` has summed it. -/
theorem Emitting.last_slot (h : Emitting s v base k (.tx :: es) t) (hk : k + 1 = (frameOf v base).length) :
    ∃ u, step t = .next u ∧ Completed s es (cellsFrom 0 (frameOf v base)) (.frame (frameOf v base)) u ∧
      emittedBytes u.outbox = emittedBytes s.outbox ++ frameOf v base ∧ u.idx.toNat = k + 1 ∧
      (k < base.length → u.acc = csum (base.take (k + 1))) := by
  have hE : Emitted v base k { t with inbox := es } := h.emitted
  obtain ⟨b, acc, hb, hacc, htx⟩ := txStep_last hE hk
  obtain ⟨-, hbase, -, hidx, -, -⟩ := h.emitted
  have hbytes : base.take k ++ [b] = frameOf v base := by
    have := (frameOf_length_bounds v base).2
    rw [← take_frameOf v (by omega), ← take_succ_of_getElem? hb, hk, List.take_length]
  refine ⟨_, (step_tx h.phase h.inbox).trans htx, ⟨rfl, h.held, rfl, rfl, rfl, ?_⟩, ?_, ?_, hacc⟩
  · simp [h.results]
  · simp [h.bytes, hbytes]
  · have hfits := frameOf_fits (v := v) hbase
    simp only [maxFrame] at hfits
    rw [BitVec.toNat_add, hidx]
    exact Nat.mod_eq_of_lt (by simp; omega)

/-- The operation of a word that has base bytes builds a frame (R134). -/
theorem constructor_of_baseList (hd : decode cw = .ok i) (hb : baseList cw op = some base) :
    i.operation = .query ∨ i.operation = .stchg ∨ i.operation = .levels :=
  (baseList_isSome_iff i op).1 ⟨base, by rwa [encode_of_decode hd]⟩

/-- After `cmd` and fewer slots than the frame has bytes. -/
theorem run_emitting (hd : decode cw = .ok i) (hb : baseList cw op = some base) (hi : s.phase = .idle) (hh : s.held = [])
    (hk : k < (frameOf i.variant base).length) (hin : s.inbox = .command (.serial cw op) :: (List.replicate k .tx ++ es)) :
    ∃ t, Host.Core.run core (k + 1) s = .next t ∧ Emitting s i.variant base k es t := by
  induction k generalizing es with
  | zero =>
    have hcmd := cmdStep_constructor op { s with inbox := es, op := op } hd (constructor_of_baseList hd hb)
    exact ⟨_, run_one ((step_serial hi hh hin).trans hcmd),
      startEmit_emitted _ hd hb, rfl, hh, rfl, by simp, rfl⟩
  | succ k ih =>
    obtain ⟨t, hrun, ht⟩ := ih (es := .tx :: es) (by omega) (by simpa [List.replicate_succ'] using hin)
    obtain ⟨u, hstep, hu⟩ := ht.slot hk
    exact ⟨u, run_snoc hrun hstep, hu⟩

/-- After `cmd` and as many slots as the frame has bytes. -/
theorem run_emit_frame (hd : decode cw = .ok i) (hb : baseList cw op = some base) (hi : s.phase = .idle)
    (hh : s.held = []) (hn : n = (frameOf i.variant base).length)
    (hin : s.inbox = .command (.serial cw op) :: (List.replicate n .tx ++ es)) :
    ∃ t, Host.Core.run core (n + 1) s = .next t ∧
      Completed s es (cellsFrom 0 (frameOf i.variant base)) (.frame (frameOf i.variant base)) t ∧
      emittedBytes t.outbox = emittedBytes s.outbox ++ frameOf i.variant base ∧ t.idx.toNat = n ∧
      (n ≤ base.length → t.acc = csum (base.take n)) := by
  cases n with
  | zero =>
    have := (baseList_length hb).1
    have := (frameOf_length_bounds i.variant base).1
    omega
  | succ k =>
    obtain ⟨t, hrun, ht⟩ := run_emitting (k := k) (es := .tx :: es) hd hb hi hh (by omega)
      (by simpa [List.replicate_succ'] using hin)
    obtain ⟨u, hstep, hu⟩ := ht.last_slot hn
    exact ⟨u, run_snoc hrun hstep, hu⟩

end EmitRun

/-- Settles O54: `Emitting` is the invariant while bytes are to come, and the slot of the last byte ends the transaction. In the
Original all base bytes are the whole frame, so that the first clause reaches its end too. -/
theorem emitPhaseInvariant : Obligations.EmitPhaseInvariant := by
  intro s cw op i base es hd hb hi hh
  refine ⟨fun k hk hin => ?_, fun hin => ?_⟩
  · rcases Nat.lt_or_ge k (frameOf i.variant base).length with hlt | hge
    · obtain ⟨t, hrun, ht⟩ := run_emitting hd hb hi hh hlt hin
      obtain ⟨-, -, -, hidx, hacc, -⟩ := ht.emitted
      exact ⟨t, hrun, ht.inbox, hidx, hacc, ht.bytes, fun _ => ⟨ht.phase, ht.results⟩⟩
    · have hwhole : k = (frameOf i.variant base).length := by
        have := (frameOf_length_bounds i.variant base).1
        omega
      obtain ⟨t, hrun, ht, hbytes, hidx, hacc⟩ := run_emit_frame hd hb hi hh hwhole hin
      have hframe : frameOf i.variant base = base.take k := by
        rw [← take_frameOf i.variant hk, hwhole, List.take_length]
      exact ⟨t, hrun, ht.inbox, hidx, hacc hk, hframe ▸ hbytes, fun hlt => absurd hlt (by omega)⟩
  · obtain ⟨t, hrun, ht, hbytes, -, -⟩ := run_emit_frame hd hb hi hh rfl hin
    exact ⟨t, hrun, ht.inbox, ht.phase, hbytes, ht.results⟩

/-! The RECV phase (R141). -/

/-- `t` is what the transaction of `VALID` or `PARSE` with word `cw` that began in `s` has come to with the bytes `r` received. -/
structure Receiving (s : State) (cw : CommandWord) (v : Variant) (r : List Byte) (es : List Event) (t : State) : Prop where
  received : Received v r t
  phase : t.phase = .recv
  held : t.held = []
  inbox : t.inbox = es
  word : t.cw = cw
  frame : t.frame = s.frame
  outbox : t.outbox = s.outbox

section RecvRun

variable {s t : State} {v : Variant} {cw : CommandWord} {op : Operands} {i : Instr} {r : List Byte} {b : Byte}
  {es : List Event}

/-- An `rx` adds its byte to those received. -/
theorem Receiving.rx (h : Receiving s cw v r (.rx b :: es) t) :
    ∃ u, step t = .next u ∧ Receiving s cw v (r ++ [b]) es u := by
  have hR : Received v r { t with inbox := es } := h.received
  obtain ⟨u, hrx, hu, hframe⟩ := rxStep_received b hR
  exact ⟨u, (step_rx h.phase h.inbox).trans hrx, hu, (congrArg State.phase hframe).trans h.phase,
    (congrArg State.held hframe).trans h.held, congrArg State.inbox hframe, (congrArg State.cw hframe).trans h.word,
    (congrArg State.frame hframe).trans h.frame, (congrArg State.outbox hframe).trans h.outbox⟩

/-- After `cmd` and one `rx` for each byte of `r`. -/
theorem run_receiving (hd : decode cw = .ok i) (ho : i.operation = .valid ∨ i.operation = .parse) (hi : s.phase = .idle)
    (hh : s.held = []) (hin : s.inbox = .command (.serial cw op) :: (r.map Event.rx ++ es)) :
    ∃ t, Host.Core.run core (r.length + 1) s = .next t ∧ Receiving s cw i.variant r es t := by
  induction r using List.reverseRecOn generalizing es with
  | nil =>
    have hcmd := cmdStep_response op { s with inbox := es, op := op } hd ho
    exact ⟨_, run_one ((step_serial hi hh hin).trans hcmd),
      startRecv_received op _ hd ho, rfl, hh, rfl, rfl, rfl, rfl⟩
  | append_singleton r b ih =>
    obtain ⟨t, hrun, ht⟩ := ih (es := .rx b :: es) (by simpa using hin)
    obtain ⟨u, hstep, hu⟩ := ht.rx
    rw [List.length_append, List.length_singleton]
    exact ⟨u, run_snoc hrun hstep, hu⟩

/-- The record of the capture registers is that of the response: both have the response as their lanes. -/
theorem Received.record_eq (h : Received v r s) (hl : r.length = rlen v) :
    recordOf v (fun k => s.fbuf[k]?) = recordOf v (respRead r) := by
  obtain ⟨a, ha, hlanes_a, -⟩ := recordOf_eq hl (h.fbuf_eq hl)
  obtain ⟨b, hb, hlanes_b, -⟩ := recordOf_eq (read := respRead r) hl fun _ _ => rfl
  rw [ha, hb, namedLanes_injective (hlanes_a.trans hlanes_b.symm)]

theorem rxStep_phase (h : rxStep b s = .next t) : t.phase = s.phase := by
  unfold rxStep at h
  split at h
  · cases h
  · cases h; rfl

theorem rxEndStep_phase (h : rxEndStep s = .next t) : t.phase = .idle := by
  unfold rxEndStep at h
  split at h
  · cases h; rfl
  · split at h
    · split at h
      · cases h
      · cases h; rfl
    · cases h; rfl
  · cases h

/-- What ends a RECV phase: only `rx_end` and `reset`, and both lead to IDLE. -/
theorem step_leaves_recv (hp : s.phase = .recv) (h : step s = .next t) (ht : t.phase ≠ .recv) :
    t.phase = .idle ∧ ∃ es, s.inbox = .rxEnd :: es ∨ s.inbox = .reset :: es := by
  have hstays : t.phase ≠ s.phase := hp ▸ ht
  have hstep := step_offers (s := s) (.inr (by simp [hp]))
  rw [h] at hstep
  match hin : s.inbox with
  | [] =>
    have hwait : t = s := by simpa [advanceOffers, hin, hp] using hstep
    exact absurd (congrArg State.phase hwait) hstays
  | .command c :: es =>
    have hheld : t = hold c { s with inbox := es } := by simpa [advanceOffers, hin, offer, hp] using hstep
    exact absurd (congrArg State.phase hheld) hstays
  | .tx :: es =>
    have hpasses : t = { s with inbox := es } := by simpa [advanceOffers, hin, offer, hp] using hstep
    exact absurd (congrArg State.phase hpasses) hstays
  | .rx b :: es => exact absurd (rxStep_phase ((step_rx hp hin).symm.trans h)) hstays
  | .rxEnd :: es => exact ⟨rxEndStep_phase ((step_rxEnd hp hin).symm.trans h), es, .inl rfl⟩
  | .reset :: es =>
    have hreset : t = resetStep { s with inbox := es } := by simpa [advanceOffers, hin, offer] using hstep
    exact ⟨congrArg State.phase hreset, es, .inr rfl⟩

end RecvRun

/-- Settles O55: `Receiving` is the invariant, from which the verdict and the record follow. -/
theorem receivePhaseInvariant : Obligations.ReceivePhaseInvariant := by
  refine ⟨fun s cw op i r es hd ho hi hh hin => ?_, fun s t hp h ht => step_leaves_recv hp h ht⟩
  obtain ⟨t, hrun, ht⟩ := run_receiving hd ho hi hh hin
  exact ⟨t, hrun, ht.phase, ht.inbox, ht.outbox, ht.received, rxVerdict_received ht.received, ht.received.record_eq⟩

/-! The refinement (R150). -/

/-- At level T the transaction of these inputs delivers `r` from every state `w` in which it is accepted, and leaves `m w.frame` in
FRAME. -/
def TransactionGives (cw : CommandWord) (op : Operands) (resp : List Byte) (m : Memory → Memory) (r : Result) : Prop :=
  ∀ w : State, accept (.whole cw op resp) w = .next (answered (ported (.whole cw op resp) w) (m w.frame) r)

theorem transactionGives_reserved {cw : CommandWord} (op : Operands) (resp : List Byte)
    (h : decode cw = .error (.reserved cw)) : TransactionGives cw op resp id (.cmdReserved cw) := by
  intro w
  simp only [accept, h]; rfl

/-- Level T runs `exec` of the operation on the ports. -/
theorem transactionGives_of_exec {cw : CommandWord} {op : Operands} {i : Instr} {resp : List Byte} {m : Memory → Memory}
    {r : Result} (hd : decode cw = .ok i)
    (h : ∀ w : State, w.op = op → w.resp = resp → exec i w = .next (answered w (m w.frame) r)) :
    TransactionGives cw op resp m r := by
  intro w
  simp only [accept, hd]
  exact h (ported (.whole cw op resp) w) rfl rfl

/-- A transaction of level T offered to an idle block. -/
theorem TransactionGives.step_whole {cw : CommandWord} {op : Operands} {resp : List Byte} {m : Memory → Memory} {r : Result}
    (h : TransactionGives cw op resp m r) {w : State} (hi : w.phase = .idle) (hh : w.held = []) :
    ∃ x, step { w with inbox := [.command (.whole cw op resp)] } = .next x ∧ x.resPort = some r ∧
      x.frame = m w.frame :=
  ⟨_, (step_command (s := { w with inbox := [.command (.whole cw op resp)] }) hi hh rfl).trans (h _), rfl, rfl⟩

/-- The slots of a constructor's run are as many as its frame has bytes. -/
theorem dataEvents_constructor {cw : CommandWord} {op : Operands} {i : Instr} {base : List Byte} (resp : List Byte)
    (hd : decode cw = .ok i) (hb : baseList cw op = some base) :
    dataEvents cw resp = List.replicate (frameOf i.variant base).length .tx := by
  have hlen : frameLength i.variant i.operation = some (frameOf i.variant base).length := by
    rw [frameLength, ← baseList_map_length i op, encode_of_decode hd, hb, frameOf_length]; rfl
  rcases constructor_of_baseList hd hb with ho | ho | ho <;> rw [ho] at hlen <;> simp [dataEvents, hd, ho, hlen]

/-- `PARSE` of level T on an accepted response delivers the record of its bytes. -/
theorem exec_parse_record {v : Variant} {s : State} {record : Named} (h : validate v s.resp = some accepted)
    (hr : recordOf v (respRead s.resp) = some record) :
    exec (Instr.ofParts v .parse) s = .next (answered s s.frame (.named record)) := by
  have hparse : parseResponse v s = .next (answered s s.frame (.named record)) := by
    simp only [parseResponse, h, accepted, hr]; rfl
  cases v <;> exact hparse

theorem length_of_validate_accepted {v : Variant} {resp : List Byte} (h : validate v resp = some accepted) :
    resp.length = rlen v := by
  by_contra hne
  rw [validate_len hne] at h
  cases h

/-- `rx_end` of `VALID` delivers what level T delivers of the bytes received. -/
theorem rxEnd_refines_valid {v : Variant} {r : List Byte} {s : State} (h : Received v r s)
    (ho : operationOfOpc (opcOf s.cw) = some .valid) :
    ∃ q, rxEndStep s = .next (answered { s with phase := .idle } s.frame q) ∧
      ∀ w : State, w.resp = r → exec (Instr.ofParts v .valid) w = .next (answered w w.frame q) := by
  refine ⟨.valid (rxVerdict v s), rxEndStep_valid h.1 ho, fun w hw => ?_⟩
  exact exec_valid (hw ▸ rxVerdict_received h)

/-- `rx_end` of `PARSE` delivers what level T delivers of the bytes received: the contract's error with the cause of the same
verdict, or the record of the capture registers, which is that of the response. -/
theorem rxEnd_refines_parse {v : Variant} {r : List Byte} {s : State} (h : Received v r s)
    (ho : operationOfOpc (opcOf s.cw) = some .parse) :
    ∃ q, rxEndStep s = .next (answered { s with phase := .idle } s.frame q) ∧
      ∀ w : State, w.resp = r → exec (Instr.ofParts v .parse) w = .next (answered w w.frame q) := by
  have hverdict := rxVerdict_received h
  cases hok : (rxVerdict v s).ok with
  | false =>
    refine ⟨.parseContract (rxVerdict v s).rej, rxEndStep_parse_error h.1 ho hok, fun w hw => ?_⟩
    exact exec_parse_error (hw ▸ hverdict) hok
  | true =>
    rw [rxVerdict_eq_accepted hok] at hverdict
    obtain ⟨record, hrec, hstep⟩ := rxEndStep_parse_ok h.1 ho hok
    rw [h.record_eq (length_of_validate_accepted hverdict)] at hrec
    refine ⟨.named record, hstep, fun w hw => ?_⟩
    subst hw
    exact exec_parse_record hverdict hrec

/-- The same for the instruction that the word of a response operation names. -/
theorem rxEnd_refines {i : Instr} {r : List Byte} {s : State} (hd : decode s.cw = .ok i)
    (ho : i.operation = .valid ∨ i.operation = .parse) (h : Received i.variant r s) :
    ∃ q, rxEndStep s = .next (answered { s with phase := .idle } s.frame q) ∧
      ∀ w : State, w.resp = r → exec i w = .next (answered w w.frame q) := by
  have hop := (fields_of_decode hd).2
  rw [← ofParts_self i]
  rcases ho with ho | ho <;> rw [ho] at hop ⊢
  · exact rxEnd_refines_valid h hop
  · exact rxEnd_refines_parse h hop

theorem dataEvents_response {cw : CommandWord} {i : Instr} (resp : List Byte) (hd : decode cw = .ok i)
    (ho : i.operation = .valid ∨ i.operation = .parse) : dataEvents cw resp = resp.map Event.rx ++ [.rxEnd] := by
  rcases ho with ho | ho <;> simp [dataEvents, hd, ho]

/-- The level-S run of these inputs from `s` ends the transaction with the result and the FRAME of level T. -/
def Refined (s : State) (cw : CommandWord) (op : Operands) (resp : List Byte) (es : List Event) : Prop :=
  ∃ m r t, TransactionGives cw op resp m r ∧ Host.Core.run core (serialEvents cw op resp).length s = .next t ∧
    Completed s es (m s.frame) r t

/-! Each kind of operation, where the run begins in an idle block with nothing held. -/

section RefinedRun

variable {s : State} {cw : CommandWord} {op : Operands} {i : Instr} {base resp : List Byte} {r : Result}
  {es : List Event} (hi : s.phase = .idle) (hh : s.held = []) (hin : s.inbox = serialEvents cw op resp ++ es)

include hi hh hin

/-- A word that `cmd` answers at once needs no further offer. -/
theorem refined_of_answer (hT : TransactionGives cw op resp id r) (hdata : dataEvents cw resp = [])
    (hcmd : ∀ w, cmdStep cw op w = .next (answered w w.frame r)) :
    Refined s cw op resp es := by
  have hin' : s.inbox = .command (.serial cw op) :: es := by rw [hin, serialEvents, hdata]; rfl
  have hlen : (serialEvents cw op resp).length = 1 := by rw [serialEvents, hdata]; rfl
  refine ⟨id, r, answered { s with inbox := es, op := op } s.frame r, hT, ?_, hi, hh, rfl, rfl, rfl, by simp⟩
  rw [hlen]
  exact run_one ((step_serial hi hh hin').trans (hcmd _))

theorem refined_reserved (h : decode cw = .error (.reserved cw)) : Refined s cw op resp es :=
  refined_of_answer hi hh hin (transactionGives_reserved op resp h) (by simp [dataEvents, h])
    (fun w => cmdStep_reserved op w h)

theorem refined_rlen (hd : decode cw = .ok i) (ho : i.operation = .rlen) : Refined s cw op resp es := by
  have hexec : ∀ w, exec i w = .next (answered w w.frame (.const (.length (BitVec.ofNat 8 (rlen i.variant))))) := by
    rw [← ofParts_self i, ho, ofParts_variant]
    exact exec_rlen i.variant
  exact refined_of_answer hi hh hin (transactionGives_of_exec hd fun w _ _ => hexec w)
    (by simp [dataEvents, hd, ho, frameLength, baseLength]) (fun w => cmdStep_rlen op w hd ho)

theorem refined_name (hd : decode cw = .ok i) (ho : i.operation = .name) : Refined s cw op resp es := by
  have hexec : ∀ w, exec i w = .next (answered w w.frame (.const (.tag (tag i.variant)))) := by
    rw [← ofParts_self i, ho, ofParts_variant]
    exact exec_name i.variant
  exact refined_of_answer hi hh hin (transactionGives_of_exec hd fun w _ _ => hexec w)
    (by simp [dataEvents, hd, ho, frameLength, baseLength]) (fun w => cmdStep_name op w hd ho)

theorem refined_constructor (hd : decode cw = .ok i) (hb : baseList cw op = some base) : Refined s cw op resp es := by
  have hdata := dataEvents_constructor resp hd hb
  rw [serialEvents, hdata, List.cons_append] at hin
  obtain ⟨t, hrun, ht, -⟩ := run_emit_frame hd hb hi hh rfl hin
  refine ⟨fun _ => cellsFrom 0 (frameOf i.variant base), _, t, transactionGives_of_exec hd fun w hop _ => ?_, ?_, ht⟩
  · exact exec_constructor (by rw [encode_of_decode hd, hop, hb])
  · rwa [serialEvents, hdata, List.length_cons, List.length_replicate]

theorem refined_response (hd : decode cw = .ok i) (ho : i.operation = .valid ∨ i.operation = .parse) :
    Refined s cw op resp es := by
  have hdata := dataEvents_response resp hd ho
  rw [serialEvents, hdata, List.cons_append, List.append_assoc] at hin
  obtain ⟨t, hrun, ht⟩ := run_receiving hd ho hi hh hin
  obtain ⟨q, hstep, hexec⟩ := rxEnd_refines (s := { t with inbox := es }) (ht.word ▸ hd) ho ht.received
  refine ⟨id, q, answered { t with inbox := es, phase := .idle } t.frame q,
    transactionGives_of_exec hd fun w _ hresp => hexec w hresp, ?_, rfl, ht.held, rfl, ht.frame, rfl, by simp [ht.outbox]⟩
  rw [serialEvents, hdata, List.length_cons, List.length_append, List.length_map, List.length_singleton]
  exact run_snoc hrun ((step_rxEnd ht.phase ht.inbox).trans hstep)

/-- Every word is reserved or names one of the four kinds of operation, and each kind refines. -/
theorem serial_refined : Refined s cw op resp es := by
  rcases decode_cases cw with hres | ⟨i, hd⟩
  · exact refined_reserved hi hh hin hres
  · cases ho : i.operation
    case rlen => exact refined_rlen hi hh hin hd ho
    case name => exact refined_name hi hh hin hd ho
    case valid => exact refined_response hi hh hin hd (.inl ho)
    case parse => exact refined_response hi hh hin hd (.inr ho)
    all_goals
      obtain ⟨base, hb⟩ := (baseList_isSome_iff i op).2 (by simp [ho])
      rw [encode_of_decode hd] at hb
      exact refined_constructor hi hh hin hd hb

end RefinedRun

/-- Settles O56: by the kind of operation (`serial_refined`), and level T gives the same result in every idle state. -/
theorem serialRefinesTransaction : Obligations.SerialRefinesTransaction := by
  intro s cw op resp es hi hh hin
  obtain ⟨m, r, t, hT, hrun, ht⟩ := serial_refined hi hh hin
  obtain ⟨u, hstep, hres, hframe⟩ := hT.step_whole hi hh
  refine ⟨t, u, r, hrun, hstep, hres, ht.resPort, ht.results, ht.phase, ht.held, ht.inbox,
    ht.frame.trans hframe.symm, fun w hwi hwh => ?_⟩
  obtain ⟨x, hx, hxres, -⟩ := hT.step_whole hwi hwh
  exact ⟨x, hx, hxres⟩

end Sys2Proof.Machine
end

section
/-! Proofs of the exceptions' family (spec/60_exceptions.md): a reserved command word, offered at either level (R165). -/

namespace Sys2Proof.Machine

/-- Settles O39: at level S it is the reserved case of the step `cmd` (R133); at level T an accepted reserved word gives its result
with FRAME as it stood. -/
theorem reservedWordChangesNothing : Obligations.ReservedWordChangesNothing := by
  intro s cw op resp es hres hi hh
  have hd : decode cw = .error (.reserved cw) := (decode_error_iff cw).2 hres
  constructor
  · intro hin
    exact (commandStep s cw op es hi hh hin).1 hres
  · intro hin
    exact (step_command hi hh hin).trans (transactionGives_reserved op resp hd _)

end Sys2Proof.Machine
end

section
/-! Proofs of the reset and hazards family (spec/70_reset_and_hazards.md): a `reset` abandons the transaction in progress (R182). -/

namespace Sys2Proof.Machine

/-- Settles O59: the `reset` step leaves an idle block with nothing held, whatever the phase it was taken in, and the transaction
from there is level S from an idle block, which gives what level T gives from every idle state (R150), the reset state among
them. -/
theorem resetAbandonsTransaction : Obligations.ResetAbandonsTransaction := by
  intro s cw op resp hheld hin
  have hreset : step s = .next (resetStep { s with inbox := serialEvents cw op resp }) := step_reset (.inl hheld) hin
  obtain ⟨t, _, r, hrun, -, -, htport, htresults, -, -, -, -, hlevelT⟩ :=
    serialRefinesTransaction (resetStep { s with inbox := serialEvents cw op resp }) cw op resp []
      (resetStep_phase _) hheld (List.append_nil _).symm
  obtain ⟨u, hu, huport⟩ := hlevelT State.reset rfl rfl
  exact ⟨_, t, u, r, hreset, resetStep_phase _, resetStep_outbox _, resetStep_resPort _, hrun, hu, huport, htport, htresults⟩

end Sys2Proof.Machine
end

section
/-! Proofs of the command word's encoding (spec/30_encoding.md sections 1 and 5): decoding and encoding are inverse, over words
and over byte lists (R50, R54), and the reserved words (R54). -/

namespace Sys2Proof.Machine

/-- A byte whose upper three bits are 0 is its low five bits (log 14). -/
theorem zeroExtend_low_bits {b : Byte} (h : b.extractLsb' 5 3 = 0#3) : (b.extractLsb' 0 5).zeroExtend 8 = b := by
  have hupper : b.toNat / 32 % 8 = 0 := by
    simpa [BitVec.extractLsb'_toNat, Nat.shiftRight_eq_div_pow] using congrArg BitVec.toNat h
  apply BitVec.eq_of_toNat_eq
  simp [BitVec.extractLsb'_toNat]
  omega

/-- A byte holds a command word exactly where it is the word with three zero bits above (log 14). -/
theorem commandWordOfByte_eq_ok_iff (b : Byte) (cw : CommandWord) :
    commandWordOfByte b = .ok cw ↔ b = cw.zeroExtend 8 := by
  constructor
  · intro h
    unfold commandWordOfByte at h
    split at h
    next hupper => rw [← Except.ok.inj h, zeroExtend_low_bits hupper]
    next => cases h
  · rintro rfl
    revert cw
    decide

theorem decode_eq_ok_iff (cw : CommandWord) (i : Instr) : decode cw = .ok i ↔ cw = encode i :=
  ⟨fun h => (encode_of_decode h).symm, fun h => h ▸ decode_encode i⟩

/-- Decoding of a list that has a first byte, in the words of its two stages. -/
theorem decodeBytes_cons_eq_ok_iff (b : Byte) (bytes rest : List Byte) (i : Instr) :
    decodeBytes (b :: bytes) = .ok (i, rest) ↔
      (∃ cw, commandWordOfByte b = .ok cw ∧ decode cw = .ok i) ∧ bytes = rest := by
  cases hb : commandWordOfByte b with
  | error e => simp [decodeBytes, hb]
  | ok cw => cases hd : decode cw <;> simp [decodeBytes, hb, hd]

/-- Settles O29: an empty list is no encoding, and in a list that has a first byte both stages of the decoder are inverted. -/
theorem decodeBytesInvertsEncodeBytes : Obligations.DecodeBytesInvertsEncodeBytes := by
  intro bytes rest i
  cases bytes with
  | nil => simp [decodeBytes, encodeBytes]
  | cons b bytes =>
    rw [decodeBytes_cons_eq_ok_iff]
    simp [commandWordOfByte_eq_ok_iff, decode_eq_ok_iff, encodeBytes]

/-- Settles O28: both directions are the laws of the encoder. -/
theorem decodeEncodeAgree : Obligations.DecodeEncodeAgree :=
  ⟨decode_encode, fun _ _ => encode_of_decode⟩

/-- Settles O30: each of the seven words is the encoding of its operation. -/
theorem decodeKnownWords : Obligations.DecodeKnownWords :=
  ⟨decode_encode .queryO, decode_encode .levelsO, decode_encode .stchg8, decode_encode .valid8, decode_encode .levels9,
    decode_encode .parse9, decode_encode .name9⟩

/-- The test of the two reserved codes singles out the eleven words that R54 lists. -/
theorem reserved_iff_mem (cw : CommandWord) :
    cw.reserved = true ↔
      cw ∈ ([0x07, 0x0F, 0x17, 0x18, 0x19, 0x1A, 0x1B, 0x1C, 0x1D, 0x1E, 0x1F] : List CommandWord) := by
  revert cw
  decide

/-- Settles O31: a word that does not decode is reserved, and the reserved words are the eleven listed. -/
theorem reservedWordsAreEleven : Obligations.ReservedWordsAreEleven := fun cw =>
  ⟨(decode_error_iff cw).trans (reserved_iff_mem cw), decode_cases cw⟩

end Sys2Proof.Machine
end

section
/-! Proofs about the assembler (spec/30_encoding.md section 5): what each line of R70 presents, and that a line with a literal out
of range presents nothing (R190, log 19). -/

namespace Sys2Proof.Machine

@[simp] theorem byteLiteral_iff (n : Nat) : byteLiteral n = true ↔ n < 256 := by simp [byteLiteral]

/-- The number that a mode operand stands for: the code of R88, or the literal. -/
def modeNumber : ModeOperand → Nat
  | .code .all => 0x00
  | .code .colors => 0xF0
  | .code .whites => 0x0F
  | .literal n => n

theorem modeOperandByte_eq (m : ModeOperand) : modeOperandByte m = BitVec.ofNat 8 (modeNumber m) := by
  rcases m with (_ | _ | _) | n <;> rfl

@[simp] theorem modeOperand_wellFormed_iff (m : ModeOperand) : m.wellFormed = true ↔ modeNumber m < 256 := by
  rcases m with (_ | _ | _) | n <;> simp [ModeOperand.wellFormed, modeNumber]

theorem assemble_of_wellFormed {a : Asm} (port : Operands) (resp : List Byte) (h : a.wellFormed = true) :
    assemble a port resp = some (.whole (lineWord a) (lineOperands port a) (lineResponse resp a)) := if_pos h

theorem assemble_of_not_wellFormed {a : Asm} (port : Operands) (resp : List Byte) (h : ¬ a.wellFormed = true) :
    assemble a port resp = none := if_neg h

/-- A byte list in a line is well formed exactly where every literal of it fits a byte. -/
theorem all_byteLiteral_iff (bytes : List Nat) : bytes.all byteLiteral = true ↔ ∀ n ∈ bytes, n < 256 := by simp

section Levels

variable (port : Operands) (resp : List Byte) (p : Bool) (r g b ww cool : Nat) (m : ModeOperand)

theorem levelsO_wellFormed_iff : (Asm.levelsO r g b).wellFormed = true ↔ r < 256 ∧ g < 256 ∧ b < 256 := by
  simp [Asm.wellFormed]

theorem levels8_wellFormed_iff : (Asm.levels8 p r g b ww m).wellFormed = true ↔
    r < 256 ∧ g < 256 ∧ b < 256 ∧ ww < 256 ∧ modeNumber m < 256 := by
  simp [Asm.wellFormed, and_assoc]

theorem levels9_wellFormed_iff : (Asm.levels9 p r g b ww cool m).wellFormed = true ↔
    r < 256 ∧ g < 256 ∧ b < 256 ∧ ww < 256 ∧ cool < 256 ∧ modeNumber m < 256 := by
  simp [Asm.wellFormed, and_assoc]

/-- The port under a `LEVELS.8` line. -/
theorem lineOperands_levels8 : lineOperands port (.levels8 p r g b ww m) =
    { port with persist := p, red := BitVec.ofNat 8 r, green := BitVec.ofNat 8 g, blue := BitVec.ofNat 8 b,
                warmWhite := BitVec.ofNat 8 ww, mode := BitVec.ofNat 8 (modeNumber m) } := by
  simp only [lineOperands, modeOperandByte_eq]; rfl

/-- The port under a `LEVELS.9` line. -/
theorem lineOperands_levels9 : lineOperands port (.levels9 p r g b ww cool m) =
    { port with persist := p, red := BitVec.ofNat 8 r, green := BitVec.ofNat 8 g, blue := BitVec.ofNat 8 b,
                warmWhite := BitVec.ofNat 8 ww, coolWhite := BitVec.ofNat 8 cool,
                mode := BitVec.ofNat 8 (modeNumber m) } := by
  simp only [lineOperands, modeOperandByte_eq]; rfl

/-- What a `LEVELS.8` line in range presents. -/
theorem assemble_levels8 (h : r < 256 ∧ g < 256 ∧ b < 256 ∧ ww < 256 ∧ modeNumber m < 256) :
    assemble (.levels8 p r g b ww m) port resp =
      some (.whole 0x0A
        { port with persist := p, red := BitVec.ofNat 8 r, green := BitVec.ofNat 8 g, blue := BitVec.ofNat 8 b,
                    warmWhite := BitVec.ofNat 8 ww, mode := BitVec.ofNat 8 (modeNumber m) } resp) := by
  rw [assemble_of_wellFormed port resp ((levels8_wellFormed_iff p r g b ww m).2 h), lineOperands_levels8]; rfl

/-- What a `LEVELS.9` line in range presents. -/
theorem assemble_levels9 (h : r < 256 ∧ g < 256 ∧ b < 256 ∧ ww < 256 ∧ cool < 256 ∧ modeNumber m < 256) :
    assemble (.levels9 p r g b ww cool m) port resp =
      some (.whole 0x12
        { port with persist := p, red := BitVec.ofNat 8 r, green := BitVec.ofNat 8 g, blue := BitVec.ofNat 8 b,
                    warmWhite := BitVec.ofNat 8 ww, coolWhite := BitVec.ofNat 8 cool,
                    mode := BitVec.ofNat 8 (modeNumber m) } resp) := by
  rw [assemble_of_wellFormed port resp ((levels9_wellFormed_iff p r g b ww cool m).2 h), lineOperands_levels9]; rfl

end Levels

/-- The word of a line is its variant's first word plus the code of its operation (R50, R52). -/
theorem encode_ofParts_row {v : Variant} {w : CommandWord}
    (h : (v, w) ∈ ([(.orig, 0x00), (.b8, 0x08), (.b9, 0x10)] : List (Variant × CommandWord))) (o : Operation) :
    encode (Instr.ofParts v o) = w + (opcOfOperation o).zeroExtend 5 := by
  simp only [List.mem_cons, Prod.mk.injEq, List.not_mem_nil, or_false] at h
  rcases h with ⟨rfl, rfl⟩ | ⟨rfl, rfl⟩ | ⟨rfl, rfl⟩ <;> cases o <;> rfl

/-- What a line in range presents that names an operation of a variant. -/
theorem assemble_row {v : Variant} {w : CommandWord} {o : Operation} {a : Asm} (port : Operands) (resp : List Byte)
    (hrow : (v, w) ∈ ([(.orig, 0x00), (.b8, 0x08), (.b9, 0x10)] : List (Variant × CommandWord)))
    (hline : lineWord a = encode (Instr.ofParts v o)) (h : a.wellFormed = true) :
    assemble a port resp =
      some (.whole (w + (opcOfOperation o).zeroExtend 5) (lineOperands port a) (lineResponse resp a)) := by
  rw [assemble_of_wellFormed port resp h, hline, encode_ofParts_row hrow]

/-- Settles O33: a line in range presents its word, its operands and its response, each read off its table; a line out of range
fails the test of its literals. -/
theorem assembledLinesPresentTheirOperands : Obligations.AssembledLinesPresentTheirOperands := by
  intro port resp
  refine ⟨fun v w hrow => ⟨?_, fun t => ?_, fun bytes h => ?_, fun bytes h => ?_, ?_, ?_⟩,
    fun r g b => ⟨fun h => ?_, fun h => ?_⟩, fun p r g b ww cool mb m hmb => ?_, fun n => ⟨fun h => ?_, fun h => ?_⟩⟩
  · simpa [opcOfOperation, lineOperands, lineResponse] using
      assemble_row (a := .query v) (o := .query) port resp hrow rfl rfl
  · exact assemble_row (a := .stchg v t) (o := .stchg) port resp hrow rfl rfl
  · have hfits := (all_byteLiteral_iff bytes).2 h
    exact ⟨assemble_row (a := .valid v bytes) (o := .valid) port resp hrow rfl hfits,
      assemble_row (a := .parse v bytes) (o := .parse) port resp hrow rfl hfits⟩
  · have hwide : ¬ bytes.all byteLiteral = true := by
      rw [all_byteLiteral_iff]
      push Not
      exact h
    exact ⟨assemble_of_not_wellFormed port resp hwide, assemble_of_not_wellFormed port resp hwide⟩
  · exact assemble_row (a := .rlen v) (o := .rlen) port resp hrow rfl rfl
  · exact assemble_row (a := .name v) (o := .name) port resp hrow rfl rfl
  · exact assemble_of_wellFormed port resp ((levelsO_wellFormed_iff r g b).2 h)
  · exact assemble_of_not_wellFormed port resp (by rw [levelsO_wellFormed_iff]; omega)
  · obtain rfl : mb = modeNumber m := hmb.trans (by rcases m with (_ | _ | _) | n <;> rfl)
    refine ⟨fun h => ⟨assemble_levels8 port resp p r g b ww m h, fun hcool => ?_⟩, fun h => ⟨?_, ?_⟩, fun h => ?_⟩
    · exact assemble_levels9 port resp p r g b ww cool m (by omega)
    · exact assemble_of_not_wellFormed port resp (by rw [levels8_wellFormed_iff]; omega)
    · exact assemble_of_not_wellFormed port resp (by rw [levels9_wellFormed_iff]; omega)
    · exact assemble_of_not_wellFormed port resp (by rw [levels9_wellFormed_iff]; omega)
  · exact assemble_of_wellFormed port resp (by simpa [Asm.wellFormed] using h)
  · exact assemble_of_not_wellFormed port resp (by simpa [Asm.wellFormed] using h)

/-- Settles O34: the line presents a level-T `LEVELS.8` command, which an idle block runs in one step; its frame is that of R113
with the operands of the line. -/
theorem assembledLevelsEightRuns : Obligations.AssembledLevelsEightRuns := by
  refine ⟨fun s p r g b ww mb m c es hmb hr hg hb hww hm hi hh hin hline => ?_, fun p r g b ww m port resp h => ?_⟩
  · obtain rfl : mb = modeNumber m := hmb.trans (by rcases m with (_ | _ | _) | n <;> rfl)
    rw [assemble_levels8 s.op s.resp p r g b ww m ⟨hr, hg, hb, hww, hm⟩] at hline
    obtain rfl := Option.some.inj hline
    refine ⟨_, (step_command hi hh hin).trans (levelsEightBuildsFrame.2 _ _ _ rfl rfl), ?_⟩
    clear hmb
    cases p <;> simp [Nat.mod_eq_of_lt, hr, hg, hb, hww, hm]
  · have hmode : (∃ n, m = .literal n ∧ 256 ≤ n) → 256 ≤ modeNumber m := by
      rintro ⟨n, rfl, hn⟩
      exact hn
    have hwide := h.imp_right (Or.imp_right (Or.imp_right (Or.imp_right hmode)))
    exact assemble_of_not_wellFormed port resp (by rw [levels8_wellFormed_iff]; omega)

end Sys2Proof.Machine
end

section
/-! Proofs about the operations of level T (spec/40_interface_and_checksum.md, spec/41_original.md to spec/43_9byte.md): every
operation answers (R175), `PARSE` against `VALID` (R90, R104, R116, R126, R164), the texts of `NAME` (D12), the checksum's
sensitivity (R89), and the properties of spec/95_test_vectors.md section 2.8. -/

namespace Sys2Proof.Machine

/-- Answers with the same outcome carry the same result. -/
theorem result_eq_of_answered {s t : State} {m n : Memory} {r q : Result}
    (h : (.next (answered s m r) : Outcome) = .next (answered t n q)) : r = q :=
  Option.some.inj (congrArg State.resPort (Host.Outcome.next.inj h))

/-- A constructor leaves in FRAME the bytes it delivers, and nothing else. -/
theorem exec_frame {i : Instr} (s : State) (ho : i.operation = .query ∨ i.operation = .stchg ∨ i.operation = .levels) :
    ∃ bytes, exec i s = .next (answered s (cellsFrom 0 bytes) (.frame bytes)) := by
  obtain ⟨base, hbase⟩ := (baseList_isSome_iff i s.op).2 ho
  exact ⟨_, exec_constructor hbase⟩

/-- Settles O15: each kind of operation has its lemma about `exec`. -/
theorem everyOperationAnswers : Obligations.EveryOperationAnswers := by
  intro i s
  have hi := ofParts_self i
  cases ho : i.operation <;> rw [ho] at hi
  case valid =>
    obtain ⟨w, hw⟩ := validate_isSome i.variant s.resp
    exact ⟨_, ⟨w, rfl⟩, hi ▸ exec_valid hw⟩
  case parse =>
    obtain ⟨w, hw⟩ := validate_isSome i.variant s.resp
    rcases validate_cases hw with ⟨rfl, -⟩ | rfl | rfl | ⟨e, a, rfl, -⟩
    · obtain ⟨record, hexec, -⟩ := exec_parse_ok hw
      exact ⟨_, .inl ⟨record, rfl⟩, hi ▸ hexec⟩
    all_goals exact ⟨_, .inr ⟨_, rfl⟩, hi ▸ exec_parse_error hw rfl⟩
  case rlen => exact ⟨_, ⟨_, rfl⟩, hi ▸ exec_rlen i.variant s⟩
  case name => exact ⟨_, ⟨_, rfl⟩, hi ▸ exec_name i.variant s⟩
  all_goals
    obtain ⟨bytes, hexec⟩ := exec_frame (i := i) s (by simp [ho])
    exact ⟨_, bytes, rfl, hexec⟩

/-! `PARSE` and `VALID` of the same variant. -/

/-- `VALID` delivers the verdict of `VALIDATE` and no other. -/
theorem exec_valid_iff (v : Variant) (s : State) (w : Verdict) :
    exec (Instr.ofParts v .valid) s = .next (answered s s.frame (.valid w)) ↔ validate v s.resp = some w := by
  refine ⟨fun h => ?_, exec_valid⟩
  obtain ⟨u, hu⟩ := validate_isSome v s.resp
  rw [hu, Result.valid.inj (result_eq_of_answered ((exec_valid hu).symm.trans h))]

/-- `PARSE` delivers a record of an accepted response only. -/
theorem accepted_of_exec_parse_named {v : Variant} {s : State} {record : Named}
    (h : exec (Instr.ofParts v .parse) s = .next (answered s s.frame (.named record))) :
    validate v s.resp = some accepted := by
  obtain ⟨w, hw⟩ := validate_isSome v s.resp
  rcases validate_cases hw with ⟨rfl, -⟩ | rfl | rfl | ⟨e, a, rfl, -⟩
  · exact hw
  all_goals cases result_eq_of_answered ((exec_parse_error hw rfl).symm.trans h)

/-- Settles O11: both sides say that `VALIDATE` accepts, and the record of an accepted response has it as its lanes. -/
theorem parseNamedIffValidOk : Obligations.ParseNamedIffValidOk := by
  intro s v
  constructor
  · constructor
    · rintro ⟨record, h⟩
      exact exec_valid (accepted_of_exec_parse_named h)
    · intro h
      obtain ⟨record, hexec, -⟩ := exec_parse_ok ((exec_valid_iff v s accepted).1 h)
      exact ⟨record, hexec⟩
  · intro record h
    obtain ⟨record', hexec, hlanes, hlen, -⟩ := exec_parse_ok (accepted_of_exec_parse_named h)
    obtain rfl : record = record' := Result.named.inj (result_eq_of_answered (h.symm.trans hexec))
    exact ⟨hlanes, hlen⟩

/-- Settles O10: `PARSE` delivers the contract's error with the cause of the verdict, which of a rejection is one of three. -/
theorem parseOfInvalidRaisesContract : Obligations.ParseOfInvalidRaisesContract := by
  intro s v w h hok
  have hw : validate v s.resp = some w := (exec_valid_iff v s w).1 h
  refine ⟨exec_parse_error hw hok, ?_⟩
  rcases validate_cases hw with ⟨rfl, -⟩ | rfl | rfl | ⟨e, a, rfl, -⟩
  · cases hok
  · exact .inl rfl
  · exact .inr (.inl rfl)
  · exact .inr (.inr rfl)

/-- Settles O8: the response passes both tests of the Original, and the record is read off it byte by byte. -/
theorem parseOriginalReturnsRecord : Obligations.ParseOriginalReturnsRecord := by
  refine ⟨decode_encode .parseO, fun s b0 b2 b3 b4 b5 b6 b7 b8 b9 b10 hresp => ?_⟩
  have haccepted : validate .orig s.resp = some accepted := by
    rw [hresp]
    exact validate_orig_accepted rfl rfl
  exact exec_parse_record (v := .orig) haccepted (by rw [hresp]; rfl)

/-- Settles O9: the response passes all three tests of a checksummed variant, the third because its last byte is the sum of the
others, and the record is read off it byte by byte. -/
theorem parseCheckedReturnsRecord : Obligations.ParseCheckedReturnsRecord := by
  refine ⟨decode_encode .parse8, decode_encode .parse9,
    fun s b1 b2 b3 b4 b5 b6 b7 b8 b9 b10 b11 b12 b13 i hi hresp hsum => ?_⟩
  have hcsum : csum [0x81, b1, b2, b3, b4, b5, b6, b7, b8, b9, b10, b11, b12] = b13 := by
    simp only [csum_cons, csum_nil, hsum, add_zero, BitVec.add_assoc]
  have haccepted : validate .b8 s.resp = some accepted := by
    rw [hresp]
    exact validate_eq_accepted rfl rfl rfl fun _ => hcsum
  rcases hi with rfl | rfl
  · exact exec_parse_record (v := .b8) haccepted (by rw [hresp]; rfl)
  · exact exec_parse_record (v := .b9) haccepted (by rw [hresp]; rfl)

/-! The texts of `NAME`. -/

/-- The result of `NAME` stands for its variant's string (D12). -/
theorem nameText_tag (names : NameStrings) (v : Variant) : nameText names (.const (.tag (tag v))) = some (names.text v) := by
  cases v <;> rfl

/-- Settles O14: the two results stand for their variants' strings, which differ where the variants do. -/
theorem nameTextsDiffer : Obligations.NameTextsDiffer := by
  intro names v w s
  refine ⟨_, _, exec_name v s, exec_name w s, nameText_tag names v, ?_⟩
  rw [nameText_tag, nameText_tag, Option.some.injEq]
  exact ⟨names.injective v w, fun h => h ▸ rfl⟩

/-! The checksum's sensitivity (R89). -/

/-- The checksum of a sequence with one byte replaced: the new byte comes for the old one. -/
theorem csum_set_add (s : List Byte) (k : Nat) (b : Byte) (hk : k < s.length) : csum (s.set k b) + s[k] = csum s + b := by
  induction s generalizing k with
  | nil => cases hk
  | cons a s ih =>
    cases k with
    | zero =>
      simp only [List.set_cons_zero, List.getElem_cons_zero, csum_cons]
      ac_rfl
    | succ k =>
      have htail := ih k (Nat.lt_of_succ_lt_succ hk)
      simp only [List.set_cons_succ, List.getElem_cons_succ, csum_cons, BitVec.add_assoc, htail]

/-- One changed byte changes the checksum. -/
theorem csum_set_ne {s : List Byte} {k : Nat} {b : Byte} (hk : k < s.length) (hb : s[k]? ≠ some b) :
    csum (s.set k b) ≠ csum s := by
  intro heq
  have hsum := csum_set_add s k b hk
  rw [heq, BitVec.add_right_inj] at hsum
  exact hb (hsum ▸ List.getElem?_eq_getElem hk)

/-- Settles O21: a sum does not depend on its order, and a changed byte changes it by the difference. -/
theorem checksumOrderAndSingleByte : Obligations.ChecksumOrderAndSingleByte := by
  refine ⟨fun s t h => ?_, fun s k b hk hb => csum_set_ne hk hb⟩
  rw [csum, csum, (h.map BitVec.toNat).sum_eq]

/-! Properties 2, 6 and 7 of spec/95_test_vectors.md section 2.8. -/

/-- Settles O26: the framed body has the length and the header, and its last byte is the checksum of the others. -/
theorem framedBodyIsValid : Obligations.FramedBodyIsValid := by
  intro s body v hv hlen hhead hresp
  obtain ⟨hck, hrlen, hhidx, hhval⟩ : ck v = true ∧ rlen v = 14 ∧ hidx v = 0 ∧ hval v = 0x81 := by
    rcases hv with rfl | rfl <;> exact ⟨rfl, rfl, rfl, rfl⟩
  rw [frameOf_of_ck hck] at hresp
  have hhead' : s.resp[hidx v]? = some (hval v) := by
    rw [hresp, hhidx, hhval, List.getElem?_append_left (by omega), hhead]
  have hlast : s.resp[rlen v - 1]? = some (csum body) := by
    rw [hresp, hrlen, List.getElem?_append_right (by omega)]
    simp [hlen]
  have hbody : s.resp.take (rlen v - 1) = body := by
    rw [hresp, hrlen]
    exact List.take_left' (by omega)
  exact exec_valid (validate_eq_accepted (by simp [hresp, hlen, hrlen]) hhead' hlast fun _ => by rw [hbody])

/-- Settles O25: a frame has at most nine bytes, a response eleven or more. -/
theorem noFrameIsAValidResponse : Obligations.NoFrameIsAValidResponse := by
  intro i s v ho
  obtain ⟨base, hbase⟩ := (baseList_isSome_iff i s.op).2 ho
  have hfits : (frameOf i.variant base).length ≤ 9 := frameOf_fits hbase
  have hlong : 11 ≤ rlen v := by cases v <;> decide
  refine ⟨frameOf i.variant base, exec_constructor hbase, ?_⟩
  exact exec_valid (s := { s with resp := frameOf i.variant base }) (validate_len (by simp only; omega))

/-- An accepted response of a checksummed variant ends in the checksum of the bytes before its last. -/
theorem last_eq_csum_of_accepted {v : Variant} {resp : List Byte} (hck : ck v = true)
    (h : validate v resp = some accepted) : resp[rlen v - 1]? = some (csum (resp.take (rlen v - 1))) := by
  have hlen := length_of_validate_accepted h
  have hhead : resp[hidx v]? = some (hval v) := by
    by_contra hne
    rw [validate_head hlen hne] at h
    cases h
  have hlast : resp[rlen v - 1]? = some (resp[rlen v - 1]'(by have := (rlen_pos v).2; omega)) :=
    List.getElem?_eq_getElem _
  rw [validate_body_of_ck hck hlen hhead rfl hlast] at h
  split at h
  next heq => rw [hlast, heq]
  next => cases h

/-- With one byte changed an accepted response of a checksummed variant is accepted no longer: a change before the last byte
changes the checksum only, a change of the last byte the last byte only. -/
theorem validate_set_ne_accepted {v : Variant} {resp : List Byte} {k : Nat} {b : Byte} (hck : ck v = true)
    (h : validate v resp = some accepted) (hk : k < resp.length) (hb : resp[k]? ≠ some b) :
    validate v (resp.set k b) ≠ some accepted := by
  intro h'
  have hlen := length_of_validate_accepted h
  have hlast := last_eq_csum_of_accepted hck h
  have hlast' := last_eq_csum_of_accepted hck h'
  rcases Nat.lt_or_ge k (rlen v - 1) with hbody | hend
  · rw [List.getElem?_set_ne (by omega), hlast, List.take_set, Option.some.injEq] at hlast'
    refine csum_set_ne (s := resp.take (rlen v - 1)) ?_ ?_ hlast'.symm
    · rw [List.length_take]; omega
    · rwa [List.getElem?_take_of_lt hbody]
  · obtain rfl : k = rlen v - 1 := by omega
    rw [List.take_set_of_le (Nat.le_refl _), ← hlast, List.getElem?_set_self hk] at hlast'
    exact hb hlast'.symm

/-- Settles O24: the changed response has a verdict, and the verdict is not the accepting one. -/
theorem oneChangedByteIsRejected : Obligations.OneChangedByteIsRejected := by
  intro s i k b hi h hk hb
  obtain ⟨v, rfl, hck⟩ : ∃ v, i = Instr.ofParts v .valid ∧ ck v = true := by
    rcases hi with rfl | rfl
    · exact ⟨.b8, rfl, rfl⟩
    · exact ⟨.b9, rfl, rfl⟩
  have hrejected := validate_set_ne_accepted hck ((exec_valid_iff v s accepted).1 h) hk hb
  obtain ⟨w, hw⟩ := validate_isSome v (s.resp.set k b)
  refine ⟨w, ?_, exec_valid (s := { s with resp := s.resp.set k b }) hw⟩
  rcases validate_cases hw with ⟨rfl, -⟩ | rfl | rfl | ⟨e, a, rfl, -⟩
  · exact absurd hw hrejected
  all_goals rfl

end Sys2Proof.Machine
end

section
/-! Proofs about index space FRAME (spec/20_memory.md section 1): a write is read back at its index only (R30), and a constructor
leaves exactly its frame (R85). -/

namespace Sys2Proof.Machine

/-- What FRAME reads after a write: the new byte at its index, and at every other index what stood there. No canonical form is
needed. -/
theorem frameRead_putCell (m : Memory) (i : Nat) (b : Byte) (k : Nat) :
    frameRead (putCell m i b) k = if k = i then some b else frameRead m k := by
  induction m with
  | nil => rfl
  | cons cell m ih =>
    obtain ⟨j, c⟩ := cell
    rcases Nat.lt_trichotomy i j with hij | rfl | hij
    · simp only [putCell, if_pos hij, frameRead]
    · simp only [putCell, lt_irrefl, if_false, if_true, frameRead]
      split <;> rfl
    · simp only [putCell, if_neg (Nat.lt_asymm hij), if_neg (Nat.ne_of_gt hij), frameRead, ih]
      by_cases hk : k = j
      · rw [if_pos hk, if_pos hk, if_neg (by omega)]
      · rw [if_neg hk, if_neg hk]

theorem frameWrite_eq {m : Memory} {i : Nat} {b : Byte} (h : i < 9) : frameWrite m i b = some (putCell m i b) := if_pos h

/-- Settles O35: below 9 the write puts its cell, and at 9 and above there is no index. -/
theorem frameWriteReadsBack : Obligations.FrameWriteReadsBack := by
  refine fun m i b => ⟨fun h => ⟨putCell m i b, frameWrite_eq h, ?_, fun j hj => ?_⟩, fun h => ?_⟩
  · rw [frameRead_putCell, if_pos rfl]
  · rw [frameRead_putCell, if_neg hj]
  · exact if_neg (show ¬ i < maxFrame from Nat.not_lt.2 h)

/-- FRAME written from its first index reads the bytes by their positions. -/
theorem frameRead_cells (bytes : List Byte) (k : Nat) : frameRead (cellsFrom 0 bytes) k = bytes[k]? := by
  simpa using frameRead_cellsFrom bytes 0 k

/-- Settles O36: FRAME holds the cells of the frame that the result carries. -/
theorem constructorLeavesExactlyItsFrame : Obligations.ConstructorLeavesExactlyItsFrame := by
  intro i s ho
  obtain ⟨base, hbase⟩ := (baseList_isSome_iff i s.op).2 ho
  exact ⟨_, frameOf i.variant base, exec_constructor hbase, rfl, frameRead_cells _, cellsFrom_wf (frameOf_fits hbase)⟩

end Sys2Proof.Machine
end

section
/-! Proofs about single steps of the machine (spec/44_serial_datapath.md section 1, spec/70_reset_and_hazards.md sections 1, 3 and
4): what a step takes (R39, R132), the step `tx` (R135), what a transaction and a `reset` do to the ports (R138, R181), and the
end of a run (R196). -/

namespace Sys2Proof.Machine

/-! Which offer a step takes. -/

/-- Where no held command is taken, a step takes the next offer. -/
theorem step_offer {s : State} {e : Event} {es : List Event} (hh : s.held = [] ∨ s.phase ≠ .idle) (h : s.inbox = e :: es) :
    step s = offer e { s with inbox := es } := by
  simp only [step_offers hh, advanceOffers, h]

/-- With nothing offered the block waits, but in EMIT (log 4). -/
theorem step_waits {s : State} (hh : s.held = [] ∨ s.phase ≠ .idle) (h : s.inbox = []) (hp : s.phase ≠ .emit) :
    step s = .next s := by
  simp only [step_offers hh, advanceOffers, h, if_neg hp]

/-- A level-T command is `exec` of its operation on its operands and its response. -/
theorem accept_whole {cw : CommandWord} {op : Operands} {resp : List Byte} {i : Instr} (s : State) (hd : decode cw = .ok i) :
    accept (.whole cw op resp) s = exec i { s with op := op, resp := resp } := by
  simp only [accept, hd]; rfl

/-- The bits of an instruction are a command word that decodes to it. -/
theorem word_of_decodeTableWord {nbits w : Nat} {i : Instr} (h : decodeTableWord nbits w = some i) :
    ∃ cw, commandWordOfByte (byteOfTableWord nbits w) = .ok cw ∧ decode cw = .ok i := by
  unfold decodeTableWord at h
  split at h
  next j rest hdecode =>
    obtain rfl : j = i := Option.some.inj h
    exact ((decodeBytes_cons_eq_ok_iff _ _ _ _).1 hdecode).1
  next => cases h

/-- Settles O38: the command is taken from the offers, from the held ones, or from the port where the host's check puts it, and
accepting it is `exec`. -/
theorem stepRunsDecodedInstruction : Obligations.StepRunsDecodedInstruction := by
  refine ⟨fun s cw op resp i es hd hi hh hin => ?_, fun s cw op resp i cs hd hi hh => ?_, fun s nbits w i h => ?_⟩
  · exact (step_command hi hh hin).trans (accept_whole _ hd)
  · exact (step_held hi hh).trans (accept_whole _ hd)
  · obtain ⟨cw, hbyte, hd⟩ := word_of_decodeTableWord h
    have hfetch : s.withFetchWord nbits w = { s with phase := .idle, held := .whole cw s.op s.resp :: s.held } := by
      simp only [State.withFetchWord, presentWord, hbyte]
    rw [hfetch]
    exact (step_held rfl rfl).trans (accept_whole _ hd)

/-- Accepting a command of level T gives one result and one FRAME, whatever the registers hold (R20): that to which level S
refines it. -/
theorem transactionGives_exists (cw : CommandWord) (op : Operands) (resp : List Byte) :
    ∃ m r, TransactionGives cw op resp m r := by
  obtain ⟨m, r, -, hT, -⟩ := serial_refined (s := { State.reset with inbox := serialEvents cw op resp ++ [] }) rfl rfl rfl
  exact ⟨m, r, hT⟩

/-- Accepting a command always answers, and neither reads nor changes the held commands. -/
theorem accept_held (c : Command) (s : State) (cs : List Command) :
    ∃ u, accept c s = .next u ∧ accept c { s with held := cs } = .next { u with held := cs } := by
  cases c with
  | whole cw op resp =>
    obtain ⟨m, r, hT⟩ := transactionGives_exists cw op resp
    exact ⟨_, hT s, hT _⟩
  | serial cw op =>
    rcases decode_cases cw with hres | ⟨i, hd⟩
    · exact ⟨_, cmdStep_reserved op _ hres, cmdStep_reserved op _ hres⟩
    · cases ho : i.operation
      case rlen => exact ⟨_, cmdStep_rlen op _ hd ho, cmdStep_rlen op _ hd ho⟩
      case name => exact ⟨_, cmdStep_name op _ hd ho, cmdStep_name op _ hd ho⟩
      case valid => exact ⟨_, cmdStep_response op _ hd (.inl ho), cmdStep_response op _ hd (.inl ho)⟩
      case parse => exact ⟨_, cmdStep_response op _ hd (.inr ho), cmdStep_response op _ hd (.inr ho)⟩
      all_goals
        have hop : i.operation = .query ∨ i.operation = .stchg ∨ i.operation = .levels := by simp [ho]
        exact ⟨_, cmdStep_constructor op _ hd hop, cmdStep_constructor op _ hd hop⟩

/-- Settles O48: a busy block holds the command; an idle one accepts the oldest held command as it would accept an offered one,
with the others still held. -/
theorem commandWaitsWhileBusy : Obligations.CommandWaitsWhileBusy := by
  refine ⟨fun s c es hp hin => ?_, fun s c cs es hi hh hin t ht => ?_⟩
  · exact (step_offer (.inr hp) hin).trans (if_neg hp)
  · subst hin ht
    obtain ⟨u, hu, hheld⟩ := accept_held c { s with held := [] } cs
    exact ⟨u, (step_command (s := { s with held := [], inbox := .command c :: s.inbox }) hi rfl rfl).trans hu,
      (step_held hi hh).trans hheld⟩

/-! The step `tx`. -/

/-- A byte that is not the last. -/
theorem emitByte_more {b : Byte} {s : State} {m : Memory} (hw : frameWrite s.frame s.idx.toNat b = some m) :
    emitByte b false s =
      .next { s with frame := m, idx := s.idx + 1, outbox := s.outbox ++ [.tx b false], resPort := none } := by
  simp [emitByte, hw]

/-- The last byte ends the transaction. -/
theorem emitByte_last {b : Byte} {s : State} {m : Memory} (hw : frameWrite s.frame s.idx.toNat b = some m) :
    emitByte b true s =
      .next { s with frame := m, idx := s.idx + 1, phase := .idle,
                     outbox := s.outbox ++ [.tx b true] ++ [.res (.frame (frameBytes m))],
                     resPort := some (.frame (frameBytes m)) } := by
  simp only [emitByte, hw]; rfl

/-- Below the base length `tx` emits the base byte at `IDX`. -/
theorem txStep_base {s : State} {v : Variant} {base : List Byte} {b : Byte} (hv : variantOfVsel (vselOf s.cw) = some v)
    (hbase : baseList s.cw s.opl = some base) (hb : base[s.idx.toNat]? = some b) :
    txStep s = emitByte b (!ck v && decide (s.idx.toNat = base.length - 1)) { s with acc := s.acc + b } := by
  simp only [txStep, hv, hbase, hb]

/-- From the base length on it emits `ACC`. -/
theorem txStep_checksum {s : State} {v : Variant} {base : List Byte} (hv : variantOfVsel (vselOf s.cw) = some v)
    (hbase : baseList s.cw s.opl = some base) (hlen : base.length ≤ s.idx.toNat) : txStep s = emitByte s.acc true s := by
  simp only [txStep, hv, hbase, List.getElem?_eq_none hlen]

/-- Settles O42: `tx` emits the base byte at `IDX`, as the last one exactly in an unchecksummed variant at the end, or past the
base bytes `ACC`. -/
theorem transmitStep : Obligations.TransmitStep := by
  intro s t v base hp hv hbase hidx hslot
  obtain ⟨es, rfl, hstep⟩ : ∃ es, t = { s with inbox := es } ∧ step s = txStep t := by
    rcases hslot with ⟨es, hin, rfl⟩ | ⟨hin, rfl⟩
    · exact ⟨es, rfl, step_tx hp hin⟩
    · exact ⟨t.inbox, rfl, step_tx_alone hp hin⟩
  rw [hstep]
  refine ⟨fun b hb => ⟨_, frameWrite_eq hidx, fun hmore => ?_, fun hck hend => ?_⟩, fun hlen => ⟨_, frameWrite_eq hidx, ?_⟩⟩
  · have hlast : (!ck v && decide (s.idx.toNat = base.length - 1)) = false := by
      rcases hmore with h | h <;> simp [h]
    rw [txStep_base (s := { s with inbox := es }) hv hbase hb, hlast]
    exact ⟨none, emitByte_more (frameWrite_eq hidx)⟩
  · have hlast : (!ck v && decide (s.idx.toNat = base.length - 1)) = true := by simp [hck, hend]
    rw [txStep_base (s := { s with inbox := es }) hv hbase hb, hlast]
    exact emitByte_last (frameWrite_eq hidx)
  · rw [txStep_checksum (s := { s with inbox := es }) hv hbase hlen]
    exact emitByte_last (frameWrite_eq hidx)

/-! The ports in a transaction and after a reset. -/

theorem emitByte_resPort {b : Byte} {last : Bool} {s t : State} (h : emitByte b last s = .next t) :
    t.phase = .idle ∨ t.resPort = none := by
  cases hw : frameWrite s.frame s.idx.toNat b with
  | none => simp [emitByte, hw] at h
  | some m =>
    cases last with
    | true =>
      rw [emitByte_last hw] at h
      exact .inl (Host.Outcome.next.inj h ▸ rfl)
    | false =>
      rw [emitByte_more hw] at h
      exact .inr (Host.Outcome.next.inj h ▸ rfl)

/-- A `tx` ends the transaction or leaves no result pending. -/
theorem txStep_resPort {s t : State} (h : txStep s = .next t) : t.phase = .idle ∨ t.resPort = none := by
  unfold txStep at h
  split at h
  · split at h <;> exact emitByte_resPort h
  · cases h

/-- An `rx` leaves no result pending and hands nothing out. -/
theorem rxStep_resPort_outbox {b : Byte} {s t : State} (h : rxStep b s = .next t) :
    t.resPort = none ∧ t.outbox = s.outbox := by
  unfold rxStep at h
  split at h
  · cases h
  · cases h; exact ⟨rfl, rfl⟩

@[simp] theorem ported_phase (c : Command) (s : State) : (ported c s).phase = s.phase := by cases c <;> rfl
@[simp] theorem ported_frame (c : Command) (s : State) : (ported c s).frame = s.frame := by cases c <;> rfl
@[simp] theorem ported_outbox (c : Command) (s : State) : (ported c s).outbox = s.outbox := by cases c <;> rfl

/-- A command that an idle block accepts leaves no result pending, unless its transaction is over at once; and a transaction that
it opens finds FRAME empty in EMIT, as it was in RECV. -/
theorem accept_opens {c : Command} {s t : State} (hi : s.phase = .idle) (h : accept c s = .next t) :
    t.phase = .idle ∨ t.resPort = none ∧ (t.phase = .emit ∧ t.frame = [] ∨ t.phase = .recv ∧ t.frame = s.frame) := by
  rcases accept_cases c s with ⟨m, r, ha, -, -⟩ | ⟨cw, op, i, base, ha, -, -⟩ | ⟨cw, op, i, ha, -, -⟩ <;>
    rw [ha] at h <;> obtain rfl := Host.Outcome.next.inj h
  · exact .inl (by simp [hi])
  · exact .inr ⟨rfl, .inl ⟨rfl, rfl⟩⟩
  · exact .inr ⟨rfl, .inr ⟨rfl, by simp⟩⟩

/-- No step but one that ends a transaction leaves a result pending where none was. -/
theorem step_keeps_none_pending {s t : State} (hs : s.phase ≠ .idle → s.resPort = none) (h : step s = .next t)
    (ht : t.phase ≠ .idle) : t.resPort = none := by
  rcases step_cases h with ⟨c, u, -, -, -, hu, ha⟩ | ⟨c, es, hp, rfl⟩ | ⟨es, -, htx⟩ | ⟨es, rfl⟩ | ⟨b, es, -, hrx⟩ |
    ⟨es, -, hend⟩ | ⟨es, rfl⟩
  · exact ((accept_opens hu ha).resolve_left ht).1
  · exact hs hp
  · exact (txStep_resPort htx).resolve_left ht
  · exact hs ht
  · exact (rxStep_resPort_outbox hrx).1
  · exact absurd (rxEndStep_phase hend) ht
  · rfl

/-- Settles O41: what accepting a command opens, and what `tx` and `rx` leave on the result port. -/
theorem transactionClearsPorts : Obligations.TransactionClearsPorts := by
  refine ⟨fun s t cw op es hi hh hin h => ?_, fun s t hp hslot h ht => ?_, fun s t b es hp hin h => ?_,
    fun s t hs h ht => step_keeps_none_pending hs h ht⟩
  · rw [step_command hi hh hin] at h
    rcases accept_opens (s := { s with inbox := es }) hi h with hp | ⟨hport, ⟨hp, hframe⟩ | ⟨hp, hframe⟩⟩
    · simp [hp]
    · simp [hp, hport, hframe, frameRead]
    · simp [hp, hport, hframe]
  · obtain ⟨u, htx⟩ : ∃ u, txStep u = .next t := by
      rcases hslot with hin | ⟨es, hin⟩
      · exact ⟨_, (step_tx_alone hp hin).symm.trans h⟩
      · exact ⟨_, (step_tx hp hin).symm.trans h⟩
    exact (txStep_resPort htx).resolve_left (by simp [ht])
  · exact (rxStep_resPort_outbox ((step_rx hp hin).symm.trans h)).1

/-- Settles O46: the `reset` step writes none of these fields. -/
theorem resetLeavesPorts : Obligations.ResetLeavesPorts := by
  intro s t es hh hin h
  obtain rfl := Host.Outcome.next.inj ((step_reset hh hin).symm.trans h)
  exact ⟨resetStep_op _, resetStep_resp _, resetStep_held _, fun _ => rfl⟩

/-- Settles O47: the fields of `State.reset`, as they are defined. -/
theorem resetState : Obligations.ResetState := ⟨rfl, rfl, rfl, rfl, rfl, rfl, rfl, rfl, rfl⟩

end Sys2Proof.Machine
end

section
/-! Proofs of the invariants that every step keeps (spec/44_serial_datapath.md section 2, spec/10_state.md section 4): FRAME in
canonical form with the registers in step with the transaction (R140, R141), and results of the shape the spec gives them (R14,
R55, R163). -/

namespace Sys2Proof.Machine

/-! The step `tx` from a state in step with its transaction. -/

/-- `t` is what `tx` makes of a state with `k` bytes of the frame emitted: byte `k` is emitted and written, and either more are to
come and nothing is delivered, or it was the last and the frame is delivered. -/
structure Transmitted (v : Variant) (base : List Byte) (k : Nat) (b : Byte) (s t : State) : Prop where
  byte : (frameOf v base)[k]? = some b
  idx : t.idx = s.idx + 1
  frame : t.frame = cellsFrom 0 ((frameOf v base).take (k + 1))
  held : t.held = s.held
  inbox : t.inbox = s.inbox
  ending :
    (Emitted v base (k + 1) t ∧ t.phase = s.phase ∧ t.outbox = s.outbox ++ [.tx b false] ∧ t.resPort = none) ∨
    (k + 1 = (frameOf v base).length ∧ t.phase = .idle ∧
      t.outbox = s.outbox ++ [.tx b true] ++ [.res (.frame (frameOf v base))] ∧
      t.resPort = some (.frame (frameOf v base)))

section Emit

variable {v : Variant} {base : List Byte} {k : Nat} {b : Byte} {s t : State}

theorem Emitted.lt_length (h : Emitted v base k s) : k < (frameOf v base).length := by
  obtain ⟨-, -, hlt, -⟩ := h
  exact hlt

theorem Emitted.idx_eq (h : Emitted v base k s) : s.idx.toNat = k := by
  obtain ⟨-, -, -, hidx, -⟩ := h
  exact hidx

theorem Emitted.length_le (h : Emitted v base k s) : (frameOf v base).length ≤ 9 := by
  obtain ⟨-, hbase, -⟩ := h
  exact frameOf_fits hbase

/-- FRAME holds the bytes emitted so far. -/
theorem Emitted.frame_eq (h : Emitted v base k s) : s.frame = cellsFrom 0 ((frameOf v base).take k) := by
  obtain ⟨-, -, hlt, -, -, hframe⟩ := h
  have := (frameOf_length_bounds v base).2
  rw [hframe, take_frameOf v (by omega)]

/-- The step `tx` answers. -/
theorem Emitted.transmits (h : Emitted v base k s) : ∃ b t, txStep s = .next t ∧ Transmitted v base k b s t := by
  rcases Nat.lt_or_ge (k + 1) (frameOf v base).length with hmore | hend
  · obtain ⟨b, hbyte, hbase, htx⟩ := txStep_emitted h hmore
    have hkb : k + 1 ≤ base.length := (List.getElem?_eq_some_iff.1 hbase).1
    have hframe := congrArg (cellsFrom 0) (take_frameOf v hkb).symm
    exact ⟨b, _, htx, hbyte, rfl, hframe, rfl, rfl, .inl ⟨h.succ hmore hbase rfl rfl rfl rfl rfl, rfl, rfl, rfl⟩⟩
  · have hlast : k + 1 = (frameOf v base).length := by have := h.lt_length; omega
    obtain ⟨b, acc, hbyte, -, htx⟩ := txStep_last h hlast
    have hframe := congrArg (cellsFrom 0) (List.take_of_length_le hlast.ge).symm
    exact ⟨b, _, htx, hbyte, rfl, hframe, rfl, rfl, .inr ⟨hlast, rfl, rfl, rfl⟩⟩

/-- A `tx` emits its byte, whether it is the last or not. -/
theorem Transmitted.bytes (h : Transmitted v base k b s t) : emittedBytes t.outbox = emittedBytes s.outbox ++ [b] := by
  rcases h.ending with ⟨-, -, hout, -⟩ | ⟨-, -, hout, -⟩ <;> simp [hout]

/-- A `tx` counts `IDX` up by one. -/
theorem Transmitted.idx_toNat (h : Transmitted v base k b s t) (hE : Emitted v base k s) : t.idx.toNat = k + 1 := by
  have hlt := hE.lt_length
  have hlen := hE.length_le
  rw [h.idx, BitVec.toNat_add, hE.idx_eq]
  exact Nat.mod_eq_of_lt (by simp; omega)

/-- An index that is still to come has no value. -/
theorem Emitted.frameRead_none {j : Nat} (h : Emitted v base k s) (hj : k ≤ j) : frameRead s.frame j = none := by
  rw [h.frame_eq, frameRead_cells]
  exact List.getElem?_eq_none (by rw [List.length_take]; omega)

/-- A `tx` writes FRAME at `k` and nowhere else. -/
theorem Transmitted.frameRead_eq (h : Transmitted v base k b s t) (hE : Emitted v base k s) (j : Nat) :
    frameRead t.frame j = if j = k then some b else frameRead s.frame j := by
  rw [h.frame, hE.frame_eq, frameRead_cells, frameRead_cells, List.getElem?_take, List.getElem?_take]
  rcases Nat.lt_trichotomy j k with hjk | rfl | hjk
  · rw [if_pos (by omega), if_neg (by omega), if_pos hjk]
  · rw [if_pos (by omega), if_pos rfl, h.byte]
  · rw [if_neg (by omega), if_neg (by omega), if_neg (by omega)]

/-- In EMIT, alone or in a slot of the host's, the step is a `tx`. -/
theorem Emitted.step_transmits (h : Emitted v base k s) (hp : s.phase = .emit) (hin : s.inbox = [] ∨ ∃ es, s.inbox = .tx :: es) :
    ∃ b t, step s = .next t ∧ Transmitted v base k b { s with inbox := s.inbox.tail } t := by
  have h' : Emitted v base k { s with inbox := s.inbox.tail } := h
  obtain ⟨b, t, htx, ht⟩ := h'.transmits
  refine ⟨b, t, ?_, ht⟩
  rcases hin with hin | ⟨es, hin⟩
  · rw [step_tx_alone hp hin, ← htx, hin, List.tail_nil, ← hin]
  · rw [step_tx hp hin, ← htx, hin, List.tail_cons]

end Emit

/-! The step `rx_end` from a state in step with its transaction. -/

/-- Every result that an operation delivers is well formed. -/
theorem resultWf_of_exec {i : Instr} {s : State} {m : Memory} {r : Result} (h : exec i s = .next (answered s m r)) :
    ResultWf r := by
  obtain ⟨n, q, hexec, -, hq⟩ := exec_answers i s
  exact result_eq_of_answered (h.symm.trans hexec) ▸ hq

/-- `rx_end` answers with a well-formed result: it is one of level T's (R150). -/
theorem Received.ends {v : Variant} {r : List Byte} {s : State} (h : Received v r s) :
    ∃ q, rxEndStep s = .next (answered { s with phase := .idle } s.frame q) ∧ ResultWf q := by
  obtain ⟨-, hop, -⟩ := id h
  have hrefines : ∃ i q, rxEndStep s = .next (answered { s with phase := .idle } s.frame q) ∧
      ∀ w : State, w.resp = r → exec i w = .next (answered w w.frame q) := by
    rcases hop with hop | hop
    · exact ⟨_, rxEnd_refines_valid h hop⟩
    · exact ⟨_, rxEnd_refines_parse h hop⟩
  obtain ⟨i, q, hend, hexec⟩ := hrefines
  exact ⟨q, hend, resultWf_of_exec (hexec { s with resp := r } rfl)⟩

/-! Soundness. -/

theorem Sound.frame_wf {s : State} (h : Sound s) : Memory.wf s.frame = true := by
  obtain ⟨hwf, -⟩ := h
  exact hwf

theorem Sound.emitted {s : State} (h : Sound s) (hp : s.phase = .emit) : ∃ v base k, Emitted v base k s := by
  obtain ⟨-, hemit, -⟩ := h
  exact hemit hp

theorem Sound.received {s : State} (h : Sound s) (hp : s.phase = .recv) : ∃ v r, Received v r s := by
  obtain ⟨-, -, hrecv⟩ := h
  exact hrecv hp

/-- In IDLE nothing is asked of the registers. -/
theorem sound_of_idle {s : State} (hwf : Memory.wf s.frame = true) (hp : s.phase = .idle) : Sound s :=
  ⟨hwf, by simp [hp], by simp [hp]⟩

theorem sound_of_emitted {v : Variant} {base : List Byte} {k : Nat} {s : State} (h : Emitted v base k s)
    (hp : s.phase = .emit) : Sound s := by
  refine ⟨?_, fun _ => ⟨v, base, k, h⟩, by simp [hp]⟩
  rw [h.frame_eq]
  refine cellsFrom_wf ?_
  have := h.length_le
  rw [List.length_take, maxFrame]
  omega

theorem sound_of_received {v : Variant} {r : List Byte} {s : State} (h : Received v r s)
    (hwf : Memory.wf s.frame = true) (hp : s.phase = .recv) : Sound s :=
  ⟨hwf, by simp [hp], fun _ => ⟨v, r, h⟩⟩

/-- Whatever command an idle block accepts, it opens a phase in step with its transaction or is over at once. -/
theorem accept_sound {c : Command} {s t : State} (hwf : Memory.wf s.frame = true) (hi : s.phase = .idle)
    (h : accept c s = .next t) : Sound t := by
  rcases accept_cases c s with ⟨m, r, ha, hm, -⟩ | ⟨cw, op, i, base, ha, hd, hb⟩ | ⟨cw, op, i, ha, hd, ho⟩ <;>
    rw [ha] at h <;> obtain rfl := Host.Outcome.next.inj h
  · refine sound_of_idle ?_ (by simp [hi])
    rcases hm with rfl | hm
    · exact hwf
    · exact hm
  · exact sound_of_emitted (startEmit_emitted _ hd hb) rfl
  · exact sound_of_received (startRecv_received op _ hd ho) (by simpa using hwf) rfl

theorem txStep_sound {s t : State} (hs : Sound s) (hp : s.phase = .emit) (h : txStep s = .next t) : Sound t := by
  obtain ⟨v, base, k, hE⟩ := hs.emitted hp
  obtain ⟨b, u, htx, hu⟩ := hE.transmits
  obtain rfl := Host.Outcome.next.inj (htx.symm.trans h)
  rcases hu.ending with ⟨hE', hphase, -⟩ | ⟨hlast, hphase, -⟩
  · exact sound_of_emitted hE' (hphase.trans hp)
  · refine sound_of_idle ?_ hphase
    rw [hu.frame, hlast, List.take_length]
    exact cellsFrom_wf hE.length_le

theorem rxStep_sound {b : Byte} {s t : State} (hs : Sound s) (hp : s.phase = .recv) (h : rxStep b s = .next t) :
    Sound t := by
  obtain ⟨v, r, hR⟩ := hs.received hp
  obtain ⟨u, hrx, hR', hframe⟩ := rxStep_received b hR
  obtain rfl := Host.Outcome.next.inj (hrx.symm.trans h)
  have hwf : Memory.wf u.frame = true := congrArg State.frame hframe ▸ hs.frame_wf
  exact sound_of_received hR' hwf ((congrArg State.phase hframe).trans hp)

theorem rxEndStep_sound {s t : State} (hs : Sound s) (hp : s.phase = .recv) (h : rxEndStep s = .next t) : Sound t := by
  obtain ⟨v, r, hR⟩ := hs.received hp
  obtain ⟨q, hend, -⟩ := hR.ends
  obtain rfl := Host.Outcome.next.inj (hend.symm.trans h)
  exact sound_of_idle hs.frame_wf rfl

/-- Settles O51: each labelled step keeps soundness, and holding a command or passing a slot touches nothing of it. -/
theorem stepKeepsSound : Obligations.StepKeepsSound := by
  intro s t hs h
  rcases step_cases h with ⟨c, u, -, hframe, -, hu, ha⟩ | ⟨c, es, -, rfl⟩ | ⟨es, hp, htx⟩ | ⟨es, rfl⟩ | ⟨b, es, hp, hrx⟩ |
    ⟨es, hp, hend⟩ | ⟨es, rfl⟩
  · exact accept_sound (hframe ▸ hs.frame_wf) hu ha
  · exact hs
  · exact txStep_sound (s := { s with inbox := es }) hs hp htx
  · exact hs
  · exact rxStep_sound (s := { s with inbox := es }) hs hp hrx
  · exact rxEndStep_sound (s := { s with inbox := es }) hs hp hend
  · exact sound_of_idle hs.frame_wf rfl

/-! Well-formed results. -/

/-- No reserved word stands in the table of R134. -/
theorem baseList_of_reserved {cw : CommandWord} (op : Operands) (h : cw.reserved = true) : baseList cw op = none := by
  have hmem := (reserved_iff_mem cw).1 h
  simp only [List.mem_cons, List.not_mem_nil, or_false] at hmem
  rcases hmem with rfl | rfl | rfl | rfl | rfl | rfl | rfl | rfl | rfl | rfl | rfl <;> rfl

/-- A word that has base bytes decodes. -/
theorem decode_of_baseList {cw : CommandWord} {op : Operands} {base : List Byte} (h : baseList cw op = some base) :
    ∃ i, decode cw = .ok i := by
  refine (decode_cases cw).resolve_left fun hres => ?_
  rw [baseList_of_reserved op ((decode_error_iff cw).1 hres)] at h
  cases h

/-- The frame that a constructor's transaction delivers has one of the lengths of R55: level T delivers it too. -/
theorem Emitted.frame_wf {v : Variant} {base : List Byte} {k : Nat} {s : State} (h : Emitted v base k s) :
    ResultWf (.frame (frameOf v base)) := by
  obtain ⟨hv, hbase, -⟩ := h
  obtain ⟨i, hd⟩ := decode_of_baseList hbase
  obtain rfl : v = i.variant := Option.some.inj (hv.symm.trans (fields_of_decode hd).1)
  exact resultWf_of_exec (exec_constructor (s := { s with op := s.opl }) (by rw [encode_of_decode hd, hbase]))

theorem ResultsWf.labels {s : State} (h : ResultsWf s) {r : Result} (hr : Output.res r ∈ s.outbox) : ResultWf r := by
  obtain ⟨hlabels, -⟩ := h
  exact hlabels r hr

/-- Handing out well-formed results, with a well-formed one or none on the port, keeps the results well formed. -/
theorem resultsWf_of_labels {s t : State} {labels : List Output} (h : ResultsWf s) (hout : t.outbox = s.outbox ++ labels)
    (hlabels : ∀ r, Output.res r ∈ labels → ResultWf r) (hport : ∀ r, t.resPort = some r → ResultWf r) : ResultsWf t := by
  refine ⟨fun r hr => ?_, hport⟩
  rw [hout, List.mem_append] at hr
  exact hr.elim h.labels (hlabels r)

/-- A state that answers with a well-formed result. -/
theorem resultsWf_answered {s u : State} {r : Result} (m : Memory) (h : ResultsWf s) (hout : u.outbox = s.outbox)
    (hr : ResultWf r) : ResultsWf (answered u m r) := by
  refine resultsWf_of_labels (labels := [.res r]) h (by simp [hout]) (fun q hq => ?_) (fun q hq => ?_)
  · obtain rfl : q = r := by simpa using hq
    exact hr
  · obtain rfl : r = q := Option.some.inj hq
    exact hr

/-- A state with no result pending and no new result among the labels. -/
theorem resultsWf_of_none_pending {s t : State} (h : ResultsWf s) (hout : t.outbox = s.outbox) (hport : t.resPort = none) :
    ResultsWf t :=
  resultsWf_of_labels (labels := []) h (by simp [hout]) (by simp) (by simp [hport])

theorem accept_resultsWf {c : Command} {s u t : State} (h : ResultsWf s) (hout : u.outbox = s.outbox)
    (ha : accept c u = .next t) : ResultsWf t := by
  rcases accept_cases c u with ⟨m, r, he, -, hr⟩ | ⟨cw, op, i, base, he, -, -⟩ | ⟨cw, op, i, he, -, -⟩ <;>
    rw [he] at ha <;> obtain rfl := Host.Outcome.next.inj ha
  · exact resultsWf_answered m h (by simp [hout]) hr
  · exact resultsWf_of_none_pending h (by simp [hout]) rfl
  · exact resultsWf_of_none_pending h (by simp [hout]) rfl

theorem Transmitted.resultsWf {v : Variant} {base : List Byte} {k : Nat} {b : Byte} {s t : State}
    (ht : Transmitted v base k b s t) (hframe : ResultWf (.frame (frameOf v base))) (h : ResultsWf s) : ResultsWf t := by
  rcases ht.ending with ⟨-, -, hout, hport⟩ | ⟨-, -, hout, hport⟩
  · exact resultsWf_of_labels (labels := [.tx b false]) h hout (by simp) (by simp [hport])
  · refine resultsWf_of_labels (labels := [.tx b true, .res (.frame (frameOf v base))]) h (by simp [hout]) ?_ ?_
    · simpa using hframe
    · simpa [hport] using hframe

/-- Settles O52: what a command answers, what `rx_end` answers and the frame that `tx` completes are well formed, and no other step
hands out a result. -/
theorem stepKeepsResultsWellFormed : Obligations.StepKeepsResultsWellFormed := by
  intro s t hs hwf h
  rcases step_cases h with ⟨c, u, -, -, hout, -, ha⟩ | ⟨c, es, -, rfl⟩ | ⟨es, hp, htx⟩ | ⟨es, rfl⟩ | ⟨b, es, hp, hrx⟩ |
    ⟨es, hp, hend⟩ | ⟨es, rfl⟩
  · exact accept_resultsWf hwf hout ha
  · exact hwf
  · obtain ⟨v, base, k, hE⟩ := hs.emitted hp
    obtain ⟨b, u, hu, hT⟩ := Emitted.transmits (s := { s with inbox := es }) hE
    obtain rfl := Host.Outcome.next.inj (hu.symm.trans htx)
    exact hT.resultsWf hE.frame_wf hwf
  · exact hwf
  · obtain ⟨hport, hout⟩ := rxStep_resPort_outbox hrx
    exact resultsWf_of_none_pending hwf hout hport
  · obtain ⟨v, r, hR⟩ := hs.received hp
    obtain ⟨q, hq, hqwf⟩ := Received.ends (s := { s with inbox := es }) hR
    obtain rfl := Host.Outcome.next.inj (hq.symm.trans hend)
    exact resultsWf_answered _ hwf rfl hqwf
  · exact resultsWf_of_none_pending hwf rfl rfl

/-- Settles O50: an idle block with an empty FRAME and no result. -/
theorem resetIsSound : Obligations.ResetIsSound :=
  ⟨sound_of_idle reset_frame_wf rfl, by simp [ResultsWf, State.reset]⟩

end Sys2Proof.Machine
end

section
/-! Proofs of what rests on the invariants: which steps answer (spec/44_serial_datapath.md R132), the writes to FRAME
(spec/20_memory.md R30, R32), the end of an EMIT phase (R140) and of a run (spec/70_reset_and_hazards.md R196). -/

namespace Sys2Proof.Machine

/-! Which steps answer. -/

theorem offer_answers {s : State} {e : Event} (hs : Sound s) (he : (∃ b, e = .rx b) ∨ e = .rxEnd → s.phase = .recv) :
    ∃ t, offer e s = .next t := by
  cases e with
  | command c =>
    by_cases hi : s.phase = .idle
    · obtain ⟨t, ht, -⟩ := accept_held c s []
      exact ⟨t, (if_pos hi).trans ht⟩
    · exact ⟨_, if_neg hi⟩
  | tx =>
    by_cases hp : s.phase = .emit
    · obtain ⟨v, base, k, hE⟩ := hs.emitted hp
      obtain ⟨b, t, htx, -⟩ := hE.transmits
      exact ⟨t, (if_pos hp).trans htx⟩
    · exact ⟨_, if_neg hp⟩
  | rx b =>
    have hp := he (.inl ⟨b, rfl⟩)
    obtain ⟨v, r, hR⟩ := hs.received hp
    obtain ⟨t, hrx, -⟩ := rxStep_received b hR
    exact ⟨t, (if_pos hp).trans hrx⟩
  | rxEnd =>
    have hp := he (.inr rfl)
    obtain ⟨v, r, hR⟩ := hs.received hp
    obtain ⟨q, hend, -⟩ := hR.ends
    exact ⟨_, (if_pos hp).trans hend⟩
  | reset => exact ⟨_, rfl⟩

/-- `rx` outside RECV is the host's error (R132). -/
theorem offer_rx_fault {s : State} (b : Byte) (hp : s.phase ≠ .recv) : offer (.rx b) s = .fault .rxOutsideRecv := if_neg hp

/-- `rx_end` outside RECV is the host's error (R132). -/
theorem offer_rxEnd_fault {s : State} (hp : s.phase ≠ .recv) : offer .rxEnd s = .fault .rxEndOutsideRecv := if_neg hp

theorem HostError.not_next {s t : State} (h : HostError s) : step s ≠ .next t := by
  obtain ⟨hp, hh, hin⟩ := h
  rcases hin with ⟨b, es, hin⟩ | ⟨es, hin⟩ <;> rw [step_offer hh hin]
  · rw [offer_rx_fault (s := { s with inbox := es }) b hp]; nofun
  · rw [offer_rxEnd_fault (s := { s with inbox := es }) hp]; nofun

/-- A sound state steps on unless the host makes an error: a held command is accepted, and of the offers only `rx` and `rx_end`
need a phase. -/
theorem Sound.answers {s : State} (hs : Sound s) (he : ¬ HostError s) : ∃ t, step s = .next t := by
  by_cases hh : s.held = [] ∨ s.phase ≠ .idle
  · match hin : s.inbox with
    | [] =>
      by_cases hp : s.phase = .emit
      · obtain ⟨v, base, k, hE⟩ := hs.emitted hp
        obtain ⟨b, t, hstep, -⟩ := hE.step_transmits hp (.inl hin)
        exact ⟨t, hstep⟩
      · exact ⟨s, step_waits hh hin hp⟩
    | e :: es =>
      rw [step_offer hh hin]
      refine offer_answers (s := { s with inbox := es }) hs fun hrx => ?_
      by_contra hp
      refine he ⟨hp, hh, ?_⟩
      rcases hrx with ⟨b, rfl⟩ | rfl
      · exact .inl ⟨b, es, hin⟩
      · exact .inr ⟨es, hin⟩
  · simp only [not_or, not_not] at hh
    obtain ⟨hheld, hi⟩ := hh
    obtain ⟨c, cs, hc⟩ := List.exists_cons_of_ne_nil hheld
    obtain ⟨t, ht, -⟩ := accept_held c { s with held := cs } []
    exact ⟨t, (step_held hi hc).trans ht⟩

/-- Settles O53: a host error has no next state, and without one every sound state has. -/
theorem onlyHostErrorsStop : Obligations.OnlyHostErrorsStop := fun _ hs =>
  ⟨fun ⟨_, ht⟩ he => he.not_next ht, hs.answers⟩

/-! FRAME in an EMIT phase (R30, R32). -/

/-- In EMIT an offer other than a slot hands out nothing and leaves FRAME, where it is answered at all. -/
theorem step_emit_other {s t : State} {e : Event} {es : List Event} (hp : s.phase = .emit) (hin : s.inbox = e :: es)
    (he : e ≠ .tx) (h : step s = .next t) : t.frame = s.frame ∧ t.outbox = s.outbox := by
  have hbusy : s.phase ≠ .idle := by simp [hp]
  have hrecv : s.phase ≠ .recv := by simp [hp]
  rw [step_offer (.inr hbusy) hin] at h
  cases e with
  | command c =>
    obtain rfl := Host.Outcome.next.inj ((if_neg hbusy).symm.trans h)
    exact ⟨rfl, rfl⟩
  | tx => exact absurd rfl he
  | rx b => cases (offer_rx_fault (s := { s with inbox := es }) b hrecv).symm.trans h
  | rxEnd => cases (offer_rxEnd_fault (s := { s with inbox := es }) hrecv).symm.trans h
  | reset =>
    obtain rfl := Host.Outcome.next.inj h
    exact ⟨rfl, rfl⟩

/-- Settles O37: `tx` writes its byte at `IDX`, where no value stood, and in EMIT no other step that answers touches FRAME. -/
theorem eachFrameIndexWrittenOnce : Obligations.EachFrameIndexWrittenOnce := by
  intro s t hs hp h
  refine ⟨fun hin => ?_, fun e es hin he => step_emit_other hp hin he h⟩
  obtain ⟨v, base, k, hE⟩ := hs.emitted hp
  obtain ⟨b, u, hstep, hT⟩ := hE.step_transmits hp hin
  obtain rfl := Host.Outcome.next.inj (hstep.symm.trans h)
  have hread := hT.frameRead_eq hE
  rw [hE.idx_eq]
  refine ⟨hT.idx_toNat hE, fun j hj => hE.frameRead_none hj, ⟨b, ?_, hT.bytes⟩, fun j hj => ?_⟩
  · rw [hread, if_pos rfl]
  · rw [hread, if_neg hj]

/-! The end of an EMIT phase. -/

/-- From `k` bytes emitted the block, left alone, emits the rest and delivers the frame. -/
theorem run_emits_rest {n : Nat} {v : Variant} {base : List Byte} {k : Nat} {s : State} (h : Emitted v base k s)
    (hp : s.phase = .emit) (hin : s.inbox = []) (hn : n = (frameOf v base).length - k) :
    ∃ t, Host.Core.run core n s = .next t ∧ t.phase = .idle ∧ t.held = s.held ∧ t.frame = cellsFrom 0 (frameOf v base) ∧
      t.resPort = some (.frame (frameOf v base)) ∧
      emittedBytes t.outbox = emittedBytes s.outbox ++ (frameOf v base).drop k ∧
      resultsOf t.outbox = resultsOf s.outbox ++ [.frame (frameOf v base)] := by
  have hlt := h.lt_length
  induction n generalizing k s with
  | zero => omega
  | succ n ih =>
    obtain ⟨b, u, hstep, hT⟩ := h.step_transmits hp (.inl hin)
    have hdrop : (frameOf v base).drop k = b :: (frameOf v base).drop (k + 1) := by
      rw [List.drop_eq_getElem?_toList_append, hT.byte]; rfl
    have hbytes := hT.bytes
    rw [run_succ n hstep]
    rcases hT.ending with ⟨hE, hphase, hout, -⟩ | ⟨hlast, hphase, hout, hport⟩
    · have hin' : u.inbox = [] := by rw [hT.inbox]; simp [hin]
      obtain ⟨t, hrun, hidle, hheld, hframe, hres, hbytes', hresults⟩ :=
        ih hE (hphase.trans hp) hin' (by omega) hE.lt_length
      refine ⟨t, hrun, hidle, hheld.trans hT.held, hframe, hres, ?_, ?_⟩
      · simp [hbytes', hbytes, hdrop]
      · simp [hresults, hout]
    · obtain rfl : n = 0 := by omega
      refine ⟨u, rfl, hphase, hT.held, ?_, hport, ?_, ?_⟩
      · rw [hT.frame, hlast, List.take_length]
      · simp [hbytes, hdrop, hlast]
      · simp [hout]

/-- Settles O58: the variant and base bytes of the soundness invariant are those of `CW` and `OPL`. -/
theorem emitPhaseEnds : Obligations.EmitPhaseEnds := by
  intro s v base hs hp hin hv hbase
  obtain ⟨v', base', k, hE⟩ := hs.emitted hp
  obtain ⟨hv', hbase', -⟩ := id hE
  obtain rfl : v = v' := Option.some.inj (hv.symm.trans hv')
  obtain rfl : base = base' := Option.some.inj (hbase.symm.trans hbase')
  have hlen := hE.length_le
  obtain ⟨t, hrun⟩ := run_emits_rest hE hp hin rfl
  rw [hE.idx_eq]
  exact ⟨_, t, rfl, by omega, hrun⟩

/-! The end of a run (R196). -/

/-- From an end of a run a step that answers takes an offer that is no command and touches at most the registers. -/
theorem EndOfRun.step_cases {s t : State} (hs : EndOfRun s) (h : step s = .next t) :
    t = { s with inbox := s.inbox.tail } ∨ ∃ es, s.inbox = .reset :: es ∧ t = resetStep { s with inbox := es } := by
  obtain ⟨hi, hh, hnone⟩ := hs
  have hemit : s.phase ≠ .emit := by simp [hi]
  have hrecv : s.phase ≠ .recv := by simp [hi]
  match hin : s.inbox with
  | [] =>
    obtain rfl := Host.Outcome.next.inj ((step_waits (.inl hh) hin hemit).symm.trans h)
    exact .inl (by rw [List.tail_nil, ← hin])
  | e :: es =>
    rw [step_offer (.inl hh) hin] at h
    cases e with
    | command c => exact absurd (hin ▸ List.mem_cons_self ..) (hnone c)
    | tx => exact .inl (Host.Outcome.next.inj ((if_neg hemit).symm.trans h)).symm
    | rx b => cases (offer_rx_fault (s := { s with inbox := es }) b hrecv).symm.trans h
    | rxEnd => cases (offer_rxEnd_fault (s := { s with inbox := es }) hrecv).symm.trans h
    | reset => exact .inr ⟨es, rfl, (Host.Outcome.next.inj h).symm⟩

/-- Settles O49: an end of a run is IDLE with nothing to accept, so that a step only passes an offer or resets; RECV waits, and EMIT
takes its `tx`. -/
theorem endOfRunStays : Obligations.EndOfRunStays := by
  refine ⟨fun s t hs h => ?_, fun s hs hin => ?_, fun s hs => ?_, fun s hp hin => ?_, fun s hs hp hin => ?_⟩
  · obtain ⟨hi, hh, hnone⟩ := id hs
    rcases hs.step_cases h with rfl | ⟨es, hin, rfl⟩
    · exact ⟨⟨hi, hh, fun c hc => hnone c (List.mem_of_mem_tail hc)⟩, rfl, rfl, .inl rfl⟩
    · rw [hin] at hnone
      exact ⟨⟨rfl, hh, fun c hc => hnone c (List.mem_cons_of_mem _ hc)⟩, rfl, rfl, .inr ⟨es, hin⟩⟩
  · obtain ⟨hi, hh, -⟩ := hs
    exact step_waits (.inl hh) hin (by simp [hi])
  · obtain ⟨hi, -⟩ := hs
    simp [hi]
  · exact step_waits (.inr (by simp [hp])) hin (by simp [hp])
  · obtain ⟨v, base, k, hE⟩ := hs.emitted hp
    obtain ⟨b, t, hstep, hT⟩ := hE.step_transmits hp (.inl hin)
    exact ⟨t, hstep, hT.idx⟩

end Sys2Proof.Machine
end

section
/-! Proofs of what a transaction depends on: its inputs (spec/10_state.md R20, spec/20_memory.md R36), at level S as they were latched
(spec/20_memory.md R39, spec/70_reset_and_hazards.md R187). -/

namespace Sys2Proof.Machine

/-! The result. -/

/-- Level T gives one result for these inputs. -/
theorem TransactionGives.result_unique {cw : CommandWord} {op : Operands} {resp : List Byte} {m n : Memory → Memory}
    {r q : Result} (h : TransactionGives cw op resp m r) (h' : TransactionGives cw op resp n q) : r = q :=
  result_eq_of_answered ((h State.reset).symm.trans (h' State.reset))

/-- Settles O57: at either level the result is the one that level T gives for these inputs. -/
theorem resultIndependentOfHistory : Obligations.ResultIndependentOfHistory := by
  intro s t cw op resp hs ht hsheld htheld
  obtain ⟨m, r, hT⟩ := transactionGives_exists cw op resp
  have hserial : ∀ w : State, w.phase = .idle → w.held = [] → w.inbox = serialEvents cw op resp →
      ∃ x, Host.Core.run core (serialEvents cw op resp).length w = .next x ∧ x.resPort = some r := by
    intro w hi hh hin
    obtain ⟨n, q, x, hT', hrun, hx⟩ := serial_refined (es := []) hi hh (by rw [hin, List.append_nil])
    exact ⟨x, hrun, hT'.result_unique hT ▸ hx.resPort⟩
  have hwhole : ∀ w : State, w.phase = .idle → w.held = [] → w.inbox = [.command (.whole cw op resp)] →
      ∃ x, step w = .next x ∧ x.resPort = some r := fun w hi hh hin =>
    ⟨_, (step_command hi hh hin).trans (hT _), rfl⟩
  constructor
  · intro hsin htin
    obtain ⟨x, hx, hxr⟩ := hserial s hs hsheld hsin
    obtain ⟨y, hy, hyr⟩ := hserial t ht htheld htin
    rw [hx, hy]
    exact hxr.trans hyr.symm
  · intro hsin htin
    obtain ⟨x, hx, hxr⟩ := hwhole s hs hsheld hsin
    obtain ⟨y, hy, hyr⟩ := hwhole t ht htheld htin
    rw [hx, hy]
    exact hxr.trans hyr.symm

/-! The ports in mid-transaction. -/

/-- `f` on the next state, where there is one. -/
def mapNext (f : State → State) : Outcome → Outcome
  | .next t => .next (f t)
  | .fault r => .fault r
  | .refused r => .refused r

/-- `s` with another content of the operand port and the response. -/
def withPorts (op : Operands) (resp : List Byte) (s : State) : State := { s with op := op, resp := resp }

section Ports

variable (op : Operands) (resp : List Byte) (s : State)

theorem emitByte_withPorts (b : Byte) (last : Bool) :
    emitByte b last (withPorts op resp s) = mapNext (withPorts op resp) (emitByte b last s) := by
  cases hw : frameWrite s.frame s.idx.toNat b with
  | none => simp [emitByte, withPorts, hw, mapNext]
  | some m =>
    cases last
    · rw [emitByte_more hw]; exact emitByte_more hw
    · rw [emitByte_last hw]; exact emitByte_last hw

/-- `tx` goes by the latched copies. -/
theorem txStep_withPorts : txStep (withPorts op resp s) = mapNext (withPorts op resp) (txStep s) := by
  unfold txStep
  simp only [withPorts]
  split
  · split
    · exact emitByte_withPorts op resp { s with acc := s.acc + _ } _ _
    · exact emitByte_withPorts op resp s _ _
  · rfl

/-- So does `rx`. -/
theorem rxStep_withPorts (b : Byte) : rxStep b (withPorts op resp s) = mapNext (withPorts op resp) (rxStep b s) := by
  unfold rxStep
  simp only [withPorts]
  split <;> rfl

/-- So does `rx_end`, and with it the verdict. -/
theorem rxEndStep_withPorts : rxEndStep (withPorts op resp s) = mapNext (withPorts op resp) (rxEndStep s) := by
  have hverdict (v : Variant) : rxVerdict v (withPorts op resp s) = rxVerdict v s := rfl
  unfold rxEndStep
  simp only [hverdict]
  simp only [withPorts]
  split
  · rfl
  · split
    · split <;> rfl
    · rfl
  · rfl

end Ports

/-- No offer but a command reads the ports. -/
theorem offer_withPorts (op : Operands) (resp : List Byte) (s : State) {e : Event} (he : ∀ c, e ≠ .command c) :
    offer e (withPorts op resp s) = mapNext (withPorts op resp) (offer e s) := by
  have hphase : (withPorts op resp s).phase = s.phase := rfl
  cases e with
  | command c => exact absurd rfl (he c)
  | tx =>
    simp only [offer, hphase]
    split
    · exact txStep_withPorts op resp s
    · rfl
  | rx b =>
    simp only [offer, hphase]
    split
    · exact rxStep_withPorts op resp s b
    · rfl
  | rxEnd =>
    simp only [offer, hphase]
    split
    · exact rxEndStep_withPorts op resp s
    · rfl
  | reset => rfl

/-- In mid-transaction a step that takes no command does not read the ports. -/
theorem step_withPorts (op : Operands) (resp : List Byte) {s : State} (hp : s.phase ≠ .idle)
    (hnone : ∀ c es, s.inbox ≠ .command c :: es) :
    step (withPorts op resp s) = mapNext (withPorts op resp) (step s) := by
  match hin : s.inbox with
  | [] =>
    by_cases hemit : s.phase = .emit
    · rw [step_tx_alone hemit hin, ← txStep_withPorts]
      exact step_tx_alone hemit hin
    · rw [step_waits (.inr hp) hin hemit]
      exact step_waits (.inr hp) hin hemit
  | e :: es =>
    rw [step_offer (.inr hp) hin, ← offer_withPorts op resp _ fun c hc => hnone c es (hc ▸ hin)]
    exact step_offer (.inr hp) hin

/-- Settles O60: in mid-transaction a step commutes with a change of the ports. -/
theorem portsAreLatched : Obligations.PortsAreLatched := by
  intro s t op resp hp hnone h
  have hstep := step_withPorts op resp hp hnone
  rwa [h] at hstep

end Sys2Proof.Machine
end
